-- ==== Sys2Proof/Word.lean ====
section
/-!
DEFINITION. The word types of the block (spec/00_scope.md R6, R8).
A byte of the stream has 8 bits, a register storage 16. Bits are numbered from 0 at the least significant end.
-/

namespace Sys2Proof

/-- A byte of the stream, `u8` (R6, R8). -/
abbrev Byte := BitVec 8

/-- The contents of one register storage, a displacement, a direct address or an immediate: 16 bits (R6, R8).
Read unsigned by `BitVec.toNat` (`u16`) and signed by `BitVec.toInt` (`i16`, the `signed` of R8). -/
abbrev Word := BitVec 16

end Sys2Proof
end

