-- ==== Sys2Proof/Machine/Flags.lean ====
section
/-!
DEFINITION. The arithmetic of add and sub (spec/41_add_sub_imm.md R152).
The block has no flags (spec/10_state.md R40): neither carry, overflow nor any condition is computed or kept.
-/

namespace Sys2Proof.Machine

/-- `(x + imm) mod 65536`: the exact integer sum of an unsigned `x` and a signed `imm`, narrowed to 16 bits (R150, R152). -/
def addResult (x imm : Word) : Word := BitVec.ofInt 16 (x.toNat + imm.toInt)

/-- `(x - imm) mod 65536`: the exact integer difference, narrowed to 16 bits (R151, R152). -/
def subResult (x imm : Word) : Word := BitVec.ofInt 16 (x.toNat - imm.toInt)

end Sys2Proof.Machine
end

