-- ==== Sys2Proof/Machine/Bits.lean ====
section
/-!
DEFINITION. Bit fields, sign extension and byte order (spec/00_scope.md R8, spec/20_memory.md R54).
-/

namespace Sys2Proof

/-- Bits `o .. o+w-1` of a byte counted from its most significant bit: `(b >> (8 - o - w)) & ((1 << w) - 1)`
(the bit cursor's read, R73; defined for `o + w ≤ 8`). -/
def bitField (b : Byte) (o w : Nat) : Nat :=
  b.toNat / 2 ^ (8 - o - w) % 2 ^ w

/-- `(hi << 8) | lo`: the first byte read is `lo` (R8, R54, R75). -/
def join16 (hi lo : Byte) : Word := hi ++ lo

/-- Bits 7:0 of a word, the byte that comes first in the stream (R54). -/
def loByte (v : Word) : Byte := v.extractLsb' 0 8

/-- Bits 15:8 of a word, the byte that comes second in the stream (R54). -/
def hiByte (v : Word) : Byte := v.extractLsb' 8 8

/-- `sext_16` (R8). -/
def sext16 (b : Byte) : Word := b.signExtend 16

/-- `zext_16` (R8). -/
def zext16 (b : Byte) : Word := b.zeroExtend 16

end Sys2Proof
end

