-- ==== Sys2Proof/Config.lean ====
section
/-!
DEFINITION. The parameters of the block (spec/00_scope.md R6, R7).
The block has no free value: spec/93_implementation_defined.md says that no behaviour is `any value` or `stuck`.
-/

namespace Sys2Proof

/-- `ON_UNKNOWN_OPCODE` (R6): what an unknown opcode does. The host fixes it before the first step (R232). -/
inductive Policy where
  /-- the default: an unknown opcode ends the run (R205) -/
  | abort
  /-- an unknown opcode skips one byte (R206) -/
  | skip1
  deriving DecidableEq, Repr

/-- The default of `ON_UNKNOWN_OPCODE` (R6, R205). -/
def Config.defaultPolicy : Policy := .abort

/-- The longest instruction, in bytes (R6, R70). -/
def Config.maxLength : Nat := 6

/-- The shortest instruction, in bytes (R6, R70). -/
def Config.minLength : Nat := 2

end Sys2Proof
end

