-- ==== Sys2Proof/Syntax.lean ====
section
/-!
DEFINITION. The names the block works with: register views, operands, the fields and schemes of the decoder,
the Decoded Operation, the error kinds, and `Instr`, one constructor per row of spec/opcode_table.json.
-/

namespace Sys2Proof

/-! ### Registers -/

/-- The eight independent 16-bit storages of the register file (R20). -/
inductive Storage where
  | a | b | c | d | sp | bp | si | di
  deriving DecidableEq, Repr

/-- The width class of a view (R21): all 16 bits, bits 7:0, or bits 15:8. -/
inductive ViewClass where
  | full | lo | hi
  deriving DecidableEq, Repr

/-- The 16 register views, a closed enumeration (R21, R43), in dump order. -/
inductive View where
  | ax | al | ah | bx | bl | bh | cx | cl | ch | dx | dl | dh | sp | bp | si | di
  deriving DecidableEq, Repr

/-- The four segment register names (R33, R43). They have no storage. -/
inductive SegReg where
  | es | cs | ss | ds
  deriving DecidableEq, Repr

/-! ### Operands -/

/-- The width tag of an immediate (R87). -/
inductive Tag where
  | byte | word
  deriving DecidableEq, Repr

/-- An operand as the resolver yields it (R95). -/
inductive Operand where
  | reg    (v : View)
  | seg    (s : SegReg)
  /-- base expression `rm` of the addressing table and a signed displacement, if one was encoded -/
  | mem    (rm : BitVec 3) (disp : Option Word)
  | direct (addr : Word)
  /-- an `i16` -/
  | imm    (value : Word) (tag : Tag)
  /-- an `i8` -/
  | rel    (d : Byte)
  deriving DecidableEq, Repr

/-- What an operand position resolved to (R95). -/
inductive OperandKind where
  | register | memory | immediate | relative
  deriving DecidableEq, Repr

/-! ### Fields, schemes and the Decoded Operation -/

/-- The kinds of field descriptor (R71). -/
inductive FieldKind where
  | literal | d | s | w | mod | reg | rm | sr | displacement | dataLow | dataHigh | address
  deriving DecidableEq, Repr

/-- A field descriptor `{ kind, width, value }` (R71). `value` is the pattern of a literal and the implied value of a
width-0 field; it is unused in any other field. -/
structure Field where
  kind  : FieldKind
  width : Nat
  value : Nat
  deriving DecidableEq, Repr

/-- The nine schemes of a Decoded Operation (R95). -/
inductive Scheme where
  | movRmReg | movSr | movImmReg | movImmRm | movMemToAcc | movAccToMem | addImm | subImm | jcc
  deriving DecidableEq, Repr

/-- An entry of the decode scheme table (R76): `scheme` is none for the group ARITH_IMM, whose member the ModRM
literal selects (R88). -/
structure Entry where
  scheme   : Option Scheme
  mnemonic : String
  fields   : List Field
  deriving DecidableEq, Repr

/-- The slots of the Decoded Operation (R95): the literals matched, in order, as (width, bits), and one optional slot for
each field kind. -/
structure Slots where
  literals : List (Nat × Nat) := []
  d        : Option Bool := none
  s        : Option Bool := none
  w        : Option Bool := none
  mod      : Option (BitVec 2) := none
  reg      : Option (BitVec 3) := none
  rm       : Option (BitVec 3) := none
  sr       : Option (BitVec 2) := none
  dispLo   : Option Byte := none
  dispHi   : Option Byte := none
  addrLo   : Option Byte := none
  addrHi   : Option Byte := none
  dataLo   : Option Byte := none
  dataHi   : Option Byte := none
  deriving DecidableEq, Repr

/-- The Decoded Operation (R95). -/
structure Decoded where
  scheme   : Scheme
  mnemonic : String
  opcode   : Byte
  slots    : Slots
  operands : List Operand
  kinds    : List OperandKind
  len      : Nat
  deriving DecidableEq, Repr

/-- The three error kinds (R200). -/
inductive ErrKind where
  /-- the opcode byte has no scheme, or a ModRM literal does not match (R201) -/
  | unknownOpcode
  /-- a byte needed inside an instruction lies at offset `N` or beyond (R202) -/
  | truncatedStream
  /-- RM reached before MOD is known (R203); unreachable for the table of R76 -/
  | invalidAddressingState
  deriving DecidableEq, Repr

/-! ### Instructions -/

/-- The r/m operand with its EA extension (R80), one constructor per row of the table of R80. -/
inductive Ea where
  /-- MOD=00, RM=110: a direct address -/
  | direct (addr : Word)
  /-- MOD=00, any other RM: no displacement -/
  | mem    (rm : BitVec 3)
  /-- MOD=01: an 8-bit displacement -/
  | disp8  (rm : BitVec 3) (d : Byte)
  /-- MOD=10: a 16-bit displacement -/
  | disp16 (rm : BitVec 3) (d : Word)
  /-- MOD=11: a register -/
  | reg    (rm : BitVec 3)
  deriving DecidableEq, Repr

/-- The data bytes of an immediate whose presence W alone decides (R85 with S absent or 0): one byte when W=0, two when W=1.
So the constructor is the instruction's W bit. -/
inductive ImmData where
  | byte (lo : Byte)
  | word (v : Word)
  deriving DecidableEq, Repr

/-- The instructions, one constructor per row of spec/opcode_table.json.
`d` and `w` are the D and W bits, `reg` the REG field, `ea` the MOD and RM fields with the EA extension. -/
inductive Instr where
  /-- 88-8B (R130) -/
  | movRmReg (d w : Bool) (reg : BitVec 3) (ea : Ea)
  /-- 8C (R131) -/
  | movSegToRm (sr : SegReg) (ea : Ea)
  /-- 8E (R132) -/
  | movRmToSeg (sr : SegReg) (ea : Ea)
  /-- B0-BF (R133) -/
  | movImmReg (reg : BitVec 3) (data : ImmData)
  /-- C6, C7 (R134) -/
  | movImmRm (ea : Ea) (data : ImmData)
  /-- A0, A1 (R135) -/
  | movMemToAcc (w : Bool) (addr : Word)
  /-- A2, A3 (R136) -/
  | movAccToMem (w : Bool) (addr : Word)
  /-- 80, 81 with selector 000 (R150) -/
  | addImm (ea : Ea) (data : ImmData)
  /-- 83 with selector 000 (R150) -/
  | addImmSx (ea : Ea) (lo : Byte)
  /-- 80, 81 with selector 101 (R151) -/
  | subImm (ea : Ea) (data : ImmData)
  /-- 83 with selector 101 (R151) -/
  | subImmSx (ea : Ea) (lo : Byte)
  /-- 70 (R171) -/
  | jo (disp : Byte)
  /-- 71 (R172) -/
  | jno (disp : Byte)
  /-- 72 (R173) -/
  | jb (disp : Byte)
  /-- 73 (R174) -/
  | jnb (disp : Byte)
  /-- 74 (R175) -/
  | je (disp : Byte)
  /-- 75 (R176) -/
  | jne (disp : Byte)
  /-- 76 (R177) -/
  | jbe (disp : Byte)
  /-- 77 (R178) -/
  | ja (disp : Byte)
  /-- 78 (R179) -/
  | js (disp : Byte)
  /-- 79 (R180) -/
  | jns (disp : Byte)
  /-- 7A (R181) -/
  | jp (disp : Byte)
  /-- 7B (R182) -/
  | jnp (disp : Byte)
  /-- 7C (R183) -/
  | jl (disp : Byte)
  /-- 7D (R184) -/
  | jnl (disp : Byte)
  /-- 7E (R185) -/
  | jle (disp : Byte)
  /-- 7F (R186) -/
  | jg (disp : Byte)
  deriving DecidableEq, Repr

end Sys2Proof
end

