-- ==== Sys2Proof/Machine/Operands.lean ====
section
/-!
DEFINITION. The register code tables, the addressing table and the operand resolver
(spec/10_state.md R21, R30, R33; spec/30_encoding.md R80, R86, R87, R90-R96).
-/

namespace Sys2Proof

/-! ### Register views -/

/-- The storage a view belongs to (R21). -/
def View.storage : View → Storage
  | .ax | .al | .ah => .a
  | .bx | .bl | .bh => .b
  | .cx | .cl | .ch => .c
  | .dx | .dl | .dh => .d
  | .sp => .sp
  | .bp => .bp
  | .si => .si
  | .di => .di

/-- The width class of a view (R21). -/
def View.cls : View → ViewClass
  | .ax | .bx | .cx | .dx | .sp | .bp | .si | .di => .full
  | .al | .bl | .cl | .dl => .lo
  | .ah | .bh | .ch | .dh => .hi

/-- What a view of the given class shows of its storage's word: all of it (R22), or one byte zero-extended (R23, R24). -/
def ViewClass.extract : ViewClass → Word → Word
  | .full, x => x
  | .lo, x => zext16 (loByte x)
  | .hi, x => zext16 (hiByte x)

/-- The storage's word after a put through a view of the given class: all of `x` (R25), or its low 8 bits beside the sibling
byte, which stays (R26, R27, R28). -/
def ViewClass.merge : ViewClass → Word → Word → Word
  | .full, _, x => x
  | .lo, old, x => (old &&& 0xFF00) ||| (x &&& 0x00FF)
  | .hi, old, x => (old &&& 0x00FF) ||| ((x &&& 0x00FF) <<< 8)

/-- The lowercase name of a view (R21, R102). -/
def View.name : View → String
  | .ax => "ax" | .al => "al" | .ah => "ah"
  | .bx => "bx" | .bl => "bl" | .bh => "bh"
  | .cx => "cx" | .cl => "cl" | .ch => "ch"
  | .dx => "dx" | .dl => "dl" | .dh => "dh"
  | .sp => "sp" | .bp => "bp" | .si => "si" | .di => "di"

/-- The 16 views in dump order (R21, R42). -/
def View.dumpOrder : List View :=
  [.ax, .al, .ah, .bx, .bl, .bh, .cx, .cl, .ch, .dx, .dl, .dh, .sp, .bp, .si, .di]

/-- The word-register table (R30). -/
def wordView (code : BitVec 3) : View :=
  match code.toFin with
  | 0 => .ax | 1 => .cx | 2 => .dx | 3 => .bx | 4 => .sp | 5 => .bp | 6 => .si | 7 => .di

/-- The byte-register table (R30). -/
def byteView (code : BitVec 3) : View :=
  match code.toFin with
  | 0 => .al | 1 => .cl | 2 => .dl | 3 => .bl | 4 => .ah | 5 => .ch | 6 => .dh | 7 => .bh

/-- `regTable(w, code)` (R30): W selects between the two tables. -/
def regTable (w : Bool) (code : BitVec 3) : View :=
  if w then wordView code else byteView code

/-- The accumulator: `ax`, or `al` when W=0 (R93). -/
def accumulator (w : Bool) : View := if w then .ax else .al

/-- The segment register an SR field names (R33, R92). -/
def segTable (sr : BitVec 2) : SegReg :=
  match sr.toFin with
  | 0 => .es | 1 => .cs | 2 => .ss | 3 => .ds

/-- The SR code of a segment register (R33). -/
def SegReg.code : SegReg → BitVec 2
  | .es => 0 | .cs => 1 | .ss => 2 | .ds => 3

/-- The lowercase name of a segment register (R33, R102). -/
def SegReg.name : SegReg → String
  | .es => "es" | .cs => "cs" | .ss => "ss" | .ds => "ds"

/-- The addressing table: the base expression of an RM value (R90). -/
def baseText (rm : BitVec 3) : String :=
  match rm.toFin with
  | 0 => "bx + si" | 1 => "bx + di" | 2 => "bp + si" | 3 => "bp + di"
  | 4 => "si" | 5 => "di" | 6 => "bp" | 7 => "bx"

/-! ### The EA extension -/

/-- The MOD field of an r/m operand (R80). -/
def Ea.mod : Ea → BitVec 2
  | .direct _ | .mem _ => 0b00
  | .disp8 _ _ => 0b01
  | .disp16 _ _ => 0b10
  | .reg _ => 0b11

/-- The RM field of an r/m operand (R80). -/
def Ea.rm : Ea → BitVec 3
  | .direct _ => 0b110
  | .mem rm | .disp8 rm _ | .disp16 rm _ | .reg rm => rm

/-- `E`: how many bytes the EA extension has (R80, R96). -/
def Ea.extLen : Ea → Nat
  | .direct _ => 2
  | .mem _ => 0
  | .disp8 _ _ => 1
  | .disp16 _ _ => 2
  | .reg _ => 0

/-- `rmOperand` (R80): the r/m operand, its register taken from the table W selects (R91). An 8-bit displacement is signed
(R82), and so is a 16-bit one (R83); a direct address is unsigned (R84). -/
def Ea.operand (w : Bool) : Ea → Operand
  | .direct a => .direct a
  | .mem rm => .mem rm none
  | .disp8 rm d => .mem rm (some (sext16 d))
  | .disp16 rm d => .mem rm (some d)
  | .reg rm => .reg (regTable w rm)

/-! ### Immediates -/

/-- The W bit of an instruction whose data bytes W alone decides (R85). -/
def ImmData.w : ImmData → Bool
  | .byte _ => false
  | .word _ => true

/-- The immediate's value as an `i16` (R86): a one-byte immediate is sign-extended. -/
def ImmData.value : ImmData → Word
  | .byte lo => sext16 lo
  | .word v => v

/-- How many data bytes there are (R85). -/
def ImmData.len : ImmData → Nat
  | .byte _ => 1
  | .word _ => 2

/-- The width tag W gives an immediate (R87). -/
def tagOf (w : Bool) : Tag := if w then .word else .byte

/-- The immediate operand (R86, R87). -/
def ImmData.operand (data : ImmData) : Operand := .imm data.value (tagOf data.w)

/-- The immediate operand of opcode 83: one byte, sign-extended (R86), tagged by W=1 (R87). -/
def sxOperand (lo : Byte) : Operand := .imm (sext16 lo) (tagOf true)

/-! ### The operand resolver -/

/-- D orders the two sides: with D=1 `regSide` is the destination and comes first (R93). -/
def orderByD (d : Bool) (regSide rmSide : Operand) : List Operand :=
  if d then [regSide, rmSide] else [rmSide, regSide]

/-- The displacement byte of a conditional jump. -/
def Instr.jumpDisp : Instr → Option Byte
  | .jo d | .jno d | .jb d | .jnb d | .je d | .jne d | .jbe d | .ja d
  | .js d | .jns d | .jp d | .jnp d | .jl d | .jnl d | .jle d | .jg d => some d
  | .movRmReg .. | .movSegToRm .. | .movRmToSeg .. | .movImmReg .. | .movImmRm .. | .movMemToAcc .. | .movAccToMem ..
  | .addImm .. | .addImmSx .. | .subImm .. | .subImmSx .. => none

/-- The operands in printed order, destination first (R93). -/
def Instr.operands : Instr → List Operand
  | .movRmReg d w reg ea => orderByD d (.reg (regTable w reg)) (ea.operand w)
  | .movSegToRm sr ea => orderByD false (.seg sr) (ea.operand true)
  | .movRmToSeg sr ea => orderByD true (.seg sr) (ea.operand true)
  | .movImmReg reg data => [.reg (regTable data.w reg), data.operand]
  | .movImmRm ea data | .addImm ea data | .subImm ea data => [ea.operand data.w, data.operand]
  | .addImmSx ea lo | .subImmSx ea lo => [ea.operand true, sxOperand lo]
  | .movMemToAcc w addr => [.reg (accumulator w), .direct addr]
  | .movAccToMem w addr => [.direct addr, .reg (accumulator w)]
  | .jo d | .jno d | .jb d | .jnb d | .je d | .jne d | .jbe d | .ja d
  | .js d | .jns d | .jp d | .jnp d | .jl d | .jnl d | .jle d | .jg d => [.rel d]

/-- The kind of an operand (R95): `seg` counts as a register, `mem` and `direct` as memory. -/
def Operand.kind : Operand → OperandKind
  | .reg _ | .seg _ => .register
  | .mem _ _ | .direct _ => .memory
  | .imm _ _ => .immediate
  | .rel _ => .relative

/-- The mnemonic (R76, R88, R171-R186). -/
def Instr.mnemonic : Instr → String
  | .movRmReg .. | .movSegToRm .. | .movRmToSeg .. | .movImmReg .. | .movImmRm .. | .movMemToAcc ..
  | .movAccToMem .. => "mov"
  | .addImm .. | .addImmSx .. => "add"
  | .subImm .. | .subImmSx .. => "sub"
  | .jo _ => "jo" | .jno _ => "jno" | .jb _ => "jb" | .jnb _ => "jnb"
  | .je _ => "je" | .jne _ => "jne" | .jbe _ => "jbe" | .ja _ => "ja"
  | .js _ => "js" | .jns _ => "jns" | .jp _ => "jp" | .jnp _ => "jnp"
  | .jl _ => "jl" | .jnl _ => "jnl" | .jle _ => "jle" | .jg _ => "jg"

/-- The scheme (R76, R95). -/
def Instr.scheme : Instr → Scheme
  | .movRmReg .. => .movRmReg
  | .movSegToRm .. | .movRmToSeg .. => .movSr
  | .movImmReg .. => .movImmReg
  | .movImmRm .. => .movImmRm
  | .movMemToAcc .. => .movMemToAcc
  | .movAccToMem .. => .movAccToMem
  | .addImm .. | .addImmSx .. => .addImm
  | .subImm .. | .subImmSx .. => .subImm
  | .jo _ | .jno _ | .jb _ | .jnb _ | .je _ | .jne _ | .jbe _ | .ja _
  | .js _ | .jns _ | .jp _ | .jnp _ | .jl _ | .jnl _ | .jle _ | .jg _ => .jcc

/-- The length in bytes (the table of R96). -/
def Instr.len : Instr → Nat
  | .movRmReg _ _ _ ea | .movSegToRm _ ea | .movRmToSeg _ ea => 2 + ea.extLen
  | .movImmReg _ data => 1 + data.len
  | .movImmRm ea data | .addImm ea data | .subImm ea data => 2 + ea.extLen + data.len
  | .addImmSx ea _ | .subImmSx ea _ => 3 + ea.extLen
  | .movMemToAcc _ _ | .movAccToMem _ _ => 3
  | .jo _ | .jno _ | .jb _ | .jnb _ | .je _ | .jne _ | .jbe _ | .ja _
  | .js _ | .jns _ | .jp _ | .jnp _ | .jl _ | .jnl _ | .jle _ | .jg _ => 2

end Sys2Proof
end

