-- ==== Sys2Proof/WellFormed.lean ====
section
/-!
DEFINITION. Which terms of `Instr` are instructions of the block.
The types leave one thing to check: MOD=00 with RM=110 is the direct address (R80, R81), so no `Ea.mem` has RM=110.
-/

namespace Sys2Proof

/-- `[bp]` with no displacement has no encoding under MOD=00 (R81). -/
def Ea.wf : Ea → Bool
  | .mem rm => rm != 0b110#3
  | .direct _ | .disp8 _ _ | .disp16 _ _ | .reg _ => true

/-- The well-formed instructions: those the encodings of R76 and R80 can express. -/
def Instr.wf : Instr → Bool
  | .movRmReg _ _ _ ea | .movSegToRm _ ea | .movRmToSeg _ ea | .movImmRm ea _
  | .addImm ea _ | .addImmSx ea _ | .subImm ea _ | .subImmSx ea _ => ea.wf
  | .movImmReg _ _ | .movMemToAcc _ _ | .movAccToMem _ _ => true
  | .jo _ | .jno _ | .jb _ | .jnb _ | .je _ | .jne _ | .jbe _ | .ja _
  | .js _ | .jns _ | .jp _ | .jnp _ | .jl _ | .jnl _ | .jle _ | .jg _ => true

end Sys2Proof
end

