-- ==== Sys2Proof/Decode.lean ====
section
/-!
DEFINITION. The bit cursor, the decode scheme table, the field-walking decoder and the encoder
(spec/30_encoding.md R70-R99, R116).
The decoder reads the instruction's bytes through `fetch`: `fetch k` is the byte `k` places after the opcode byte, and none
where the stream has ended. The bit cursor `q` is counted from the first bit of the instruction.
-/

namespace Sys2Proof

/-! ### Bit cursor -/

/-- `takeBits(w)` at cursor `q` (R73): the next `w` bits and the cursor after them. The byte they lie in must exist (R74). -/
def takeBits (fetch : Nat → Option Byte) (q w : Nat) : Except ErrKind (Nat × Nat) :=
  match fetch (q / 8) with
  | none => .error .truncatedStream
  | some b => .ok (bitField b (q % 8) w, q + w)

/-- `takeBits(8)` at a byte boundary: a whole byte of a displacement, an address or an immediate (R75, R80, R85). -/
def takeByte (fetch : Nat → Option Byte) (q : Nat) : Except ErrKind (Byte × Nat) :=
  match takeBits fetch q 8 with
  | .error e => .error e
  | .ok (x, q') => .ok (BitVec.ofNat 8 x, q')

/-! ### Decode scheme table (R76) -/

/-- `Lit(w)=pattern`. -/
def lit (w pattern : Nat) : Field := ⟨.literal, w, pattern⟩

/-- `X(w)`, a field read from the stream. -/
def fld (k : FieldKind) (w : Nat) : Field := ⟨k, w, 0⟩

/-- `X(0)=v`, a field whose value the scheme supplies (R72). -/
def implied (k : FieldKind) (v : Nat) : Field := ⟨k, 0, v⟩

def fieldsMovRmReg : List Field :=
  [lit 6 0b100010, fld .d 1, fld .w 1, fld .mod 2, fld .reg 3, fld .rm 3]

def fieldsMovSr : List Field :=
  [lit 6 0b100011, fld .d 1, lit 1 0, fld .mod 2, lit 1 0, fld .sr 2, fld .rm 3, implied .w 1]

def fieldsMovImmReg : List Field :=
  [lit 4 0b1011, fld .w 1, fld .reg 3, implied .d 1, fld .dataLow 8, fld .dataHigh 8]

def fieldsMovImmRm : List Field :=
  [lit 7 0b1100011, fld .w 1, fld .mod 2, lit 3 0b000, fld .rm 3, fld .dataLow 8, fld .dataHigh 8, implied .d 0]

def fieldsMovMemToAcc : List Field :=
  [lit 7 0b1010000, fld .w 1, fld .address 16, implied .d 1]

def fieldsMovAccToMem : List Field :=
  [lit 7 0b1010001, fld .w 1, fld .address 16, implied .d 0]

/-- The group ARITH_IMM. Its ModRM literal has no pattern of its own: it selects the member (R88). -/
def fieldsArithImm : List Field :=
  [lit 6 0b100000, fld .s 1, fld .w 1, fld .mod 2, lit 3 0b000, fld .rm 3, fld .dataLow 8, fld .dataHigh 8, implied .d 0]

def fieldsJcc (cccc : Nat) : List Field :=
  [lit 4 0b0111, lit 4 cccc, fld .displacement 8]

/-- The entry of a conditional jump (R76, R171-R186). -/
def jccEntry (cccc : Nat) (mnemonic : String) : Entry := ⟨some .jcc, mnemonic, fieldsJcc cccc⟩

/-- The decode scheme table: opcode bytes and the entry they share (R76). -/
def schemeTable : List (List Byte × Entry) := [
  ([0x88, 0x89, 0x8A, 0x8B], ⟨some .movRmReg, "mov", fieldsMovRmReg⟩),
  ([0x8C, 0x8E], ⟨some .movSr, "mov", fieldsMovSr⟩),
  ([0xB0, 0xB1, 0xB2, 0xB3, 0xB4, 0xB5, 0xB6, 0xB7, 0xB8, 0xB9, 0xBA, 0xBB, 0xBC, 0xBD, 0xBE, 0xBF],
    ⟨some .movImmReg, "mov", fieldsMovImmReg⟩),
  ([0xC6, 0xC7], ⟨some .movImmRm, "mov", fieldsMovImmRm⟩),
  ([0xA0, 0xA1], ⟨some .movMemToAcc, "mov", fieldsMovMemToAcc⟩),
  ([0xA2, 0xA3], ⟨some .movAccToMem, "mov", fieldsMovAccToMem⟩),
  ([0x80, 0x81, 0x83], ⟨none, "", fieldsArithImm⟩),
  ([0x70], jccEntry 0x0 "jo"), ([0x71], jccEntry 0x1 "jno"),
  ([0x72], jccEntry 0x2 "jb"), ([0x73], jccEntry 0x3 "jnb"),
  ([0x74], jccEntry 0x4 "je"), ([0x75], jccEntry 0x5 "jne"),
  ([0x76], jccEntry 0x6 "jbe"), ([0x77], jccEntry 0x7 "ja"),
  ([0x78], jccEntry 0x8 "js"), ([0x79], jccEntry 0x9 "jns"),
  ([0x7A], jccEntry 0xA "jp"), ([0x7B], jccEntry 0xB "jnp"),
  ([0x7C], jccEntry 0xC "jl"), ([0x7D], jccEntry 0xD "jnl"),
  ([0x7E], jccEntry 0xE "jle"), ([0x7F], jccEntry 0xF "jg")]

/-- The entry of an opcode byte; a byte with no entry has none (R76, R77). -/
def schemeOf (opcode : Byte) : Option Entry :=
  (schemeTable.find? (fun row => row.1.contains opcode)).map Prod.snd

/-- The member of ARITH_IMM that ModRM bits 5:3 select; the other six values select none (R88). -/
def groupMember (sel : Nat) : Option (Scheme × String) :=
  if sel = 0b000 then some (.addImm, "add")
  else if sel = 0b101 then some (.subImm, "sub")
  else none

/-! ### Field-walking decoder (R116) -/

/-- What the walker carries: the bit cursor and the record filled so far. -/
structure Walk where
  q        : Nat
  scheme   : Option Scheme
  mnemonic : String
  slots    : Slots
  deriving DecidableEq, Repr

/-- `slot(rec, kind) <- x`, for the kinds that are one field of bits (R116). -/
def Slots.set (k : FieldKind) (x : Nat) (r : Slots) : Slots :=
  match k with
  | .d => { r with d := some (x == 1) }
  | .s => { r with s := some (x == 1) }
  | .w => { r with w := some (x == 1) }
  | .mod => { r with mod := some (BitVec.ofNat 2 x) }
  | .reg => { r with reg := some (BitVec.ofNat 3 x) }
  | .rm => { r with rm := some (BitVec.ofNat 3 x) }
  | .sr => { r with sr := some (BitVec.ofNat 2 x) }
  | .displacement => { r with dispLo := some (BitVec.ofNat 8 x) }
  | .dataLow => { r with dataLo := some (BitVec.ofNat 8 x) }
  | .dataHigh => { r with dataHi := some (BitVec.ofNat 8 x) }
  | .literal | .address => r

/-- A field of kind D, S, W, MOD, REG or SR: its bits go into its slot. -/
def walkSlot (fetch : Nat → Option Byte) (f : Field) (st : Walk) : Except ErrKind Walk :=
  match takeBits fetch st.q f.width with
  | .error e => .error e
  | .ok (x, q) => .ok { st with q := q, slots := st.slots.set f.kind x }

/-- A literal field (R88): in ARITH_IMM the 3-bit literal of the ModRM byte selects the member, any other literal must equal
its pattern; both are kept in `literals`. -/
def walkLiteral (fetch : Nat → Option Byte) (group : Bool) (f : Field) (st : Walk) : Except ErrKind Walk :=
  match takeBits fetch st.q f.width with
  | .error e => .error e
  | .ok (x, q) =>
    let slots := { st.slots with literals := st.slots.literals ++ [(f.width, x)] }
    if group && f.width == 3 then
      match groupMember x with
      | none => .error .unknownOpcode
      | some (sch, mn) => .ok { q := q, scheme := some sch, mnemonic := mn, slots := slots }
    else if x = f.value then .ok { st with q := q, slots := slots }
    else .error .unknownOpcode

/-- The two address bytes, low byte first (R75, R84). -/
def walkAddress (fetch : Nat → Option Byte) (st : Walk) : Except ErrKind Walk :=
  match takeByte fetch st.q with
  | .error e => .error e
  | .ok (lo, q) =>
    match takeByte fetch q with
    | .error e => .error e
    | .ok (hi, q') => .ok { st with q := q', slots := { st.slots with addrLo := some lo, addrHi := some hi } }

/-- One displacement byte (R82). -/
def walkDisp8 (fetch : Nat → Option Byte) (st : Walk) : Except ErrKind Walk :=
  match takeByte fetch st.q with
  | .error e => .error e
  | .ok (lo, q) => .ok { st with q := q, slots := { st.slots with dispLo := some lo } }

/-- Two displacement bytes, low byte first (R75, R83). -/
def walkDisp16 (fetch : Nat → Option Byte) (st : Walk) : Except ErrKind Walk :=
  match takeByte fetch st.q with
  | .error e => .error e
  | .ok (lo, q) =>
    match takeByte fetch q with
    | .error e => .error e
    | .ok (hi, q') => .ok { st with q := q', slots := { st.slots with dispLo := some lo, dispHi := some hi } }

/-- The EA extension, read right after RM and decided by MOD and RM (R80). -/
def walkEa (fetch : Nat → Option Byte) (m : BitVec 2) (rm : BitVec 3) (st : Walk) : Except ErrKind Walk :=
  if m = 0b00 ∧ rm = 0b110 then walkAddress fetch st
  else if m = 0b01 then walkDisp8 fetch st
  else if m = 0b10 then walkDisp16 fetch st
  else .ok st

/-- An RM field with its EA extension. RM before MOD is the internal contradiction `InvalidAddressingState` (R116, R203). -/
def walkRm (fetch : Nat → Option Byte) (st : Walk) : Except ErrKind Walk :=
  match st.slots.mod with
  | none => .error .invalidAddressingState
  | some m =>
    match takeBits fetch st.q 3 with
    | .error e => .error e
    | .ok (x, q) =>
      walkEa fetch m (BitVec.ofNat 3 x) { st with q := q, slots := { st.slots with rm := some (BitVec.ofNat 3 x) } }

/-- Whether the `DataHigh` byte is there: W=1, and S absent or 0 (R85). -/
def dataHighPresent (r : Slots) : Bool :=
  r.w == some true && (r.s == none || r.s == some false)

/-- One field of the scheme (the loop body of R116). A width-0 field reads no bits (R72). -/
def walkField (fetch : Nat → Option Byte) (group : Bool) (f : Field) (st : Walk) : Except ErrKind Walk :=
  if f.width = 0 then .ok { st with slots := st.slots.set f.kind f.value }
  else
    match f.kind with
    | .literal => walkLiteral fetch group f st
    | .d | .s | .w | .mod | .reg | .sr => walkSlot fetch f st
    | .rm => walkRm fetch st
    | .address => walkAddress fetch st
    | .displacement => walkSlot fetch f st
    | .dataLow => walkSlot fetch f st
    | .dataHigh => if dataHighPresent st.slots then walkSlot fetch f st else .ok st

/-- The fields of a scheme, strictly in order (R78); the first check to fail decides the error (R89). -/
def walk (fetch : Nat → Option Byte) (group : Bool) : List Field → Walk → Except ErrKind Walk
  | [], st => .ok st
  | f :: fs, st =>
    match walkField fetch group f st with
    | .error e => .error e
    | .ok st' => walk fetch group fs st'

/-! ### From the slots to the instruction -/

/-- The r/m operand the slots hold (R80). -/
def Slots.ea (r : Slots) : Option Ea :=
  match r.mod, r.rm with
  | some m, some rm =>
    if m = 0b00 then
      if rm = 0b110 then
        match r.addrLo, r.addrHi with
        | some lo, some hi => some (.direct (join16 hi lo))
        | _, _ => none
      else some (.mem rm)
    else if m = 0b01 then r.dispLo.map (.disp8 rm)
    else if m = 0b10 then
      match r.dispLo, r.dispHi with
      | some lo, some hi => some (.disp16 rm (join16 hi lo))
      | _, _ => none
    else some (.reg rm)
  | _, _ => none

/-- The data bytes the slots hold, where W decides their number (R85). -/
def Slots.data (r : Slots) : Option ImmData :=
  match r.w, r.dataLo, r.dataHi with
  | some false, some lo, none => some (.byte lo)
  | some true, some lo, some hi => some (.word (join16 hi lo))
  | _, _, _ => none

/-- The direct address of the accumulator forms (R84). -/
def Slots.address (r : Slots) : Option Word :=
  match r.addrLo, r.addrHi with
  | some lo, some hi => some (join16 hi lo)
  | _, _ => none

/-- The conditional jump of an opcode byte `0111cccc` (R171-R186); the last case is `cccc` = 15. -/
def jccInstr (opcode : Byte) (disp : Byte) : Instr :=
  match (opcode.extractLsb' 0 4).toNat with
  | 0 => .jo disp | 1 => .jno disp | 2 => .jb disp | 3 => .jnb disp
  | 4 => .je disp | 5 => .jne disp | 6 => .jbe disp | 7 => .ja disp
  | 8 => .js disp | 9 => .jns disp | 10 => .jp disp | 11 => .jnp disp
  | 12 => .jl disp | 13 => .jnl disp | 14 => .jle disp | _ => .jg disp

/-- A group member from its slots: S=0 leaves the number of data bytes to W, S=1 (opcode 83, W=1) takes one byte (R85). -/
def arithInstr (r : Slots) (plain : Ea → ImmData → Instr) (sx : Ea → Byte → Instr) : Option Instr :=
  match r.ea, r.s with
  | some ea, some false => r.data.map (plain ea)
  | some ea, some true =>
    match r.w, r.dataLo, r.dataHi with
    | some true, some lo, none => some (sx ea lo)
    | _, _, _ => none
  | _, _ => none

/-- The instruction a filled record stands for; none where a slot its scheme fills is empty, which no walk leaves. -/
def Slots.instr (opcode : Byte) (r : Slots) : Scheme → Option Instr
  | .movRmReg =>
    match r.d, r.w, r.reg, r.ea with
    | some d, some w, some reg, some ea => some (.movRmReg d w reg ea)
    | _, _, _, _ => none
  | .movSr =>
    match r.d, r.sr, r.ea with
    | some false, some sr, some ea => some (.movSegToRm (segTable sr) ea)
    | some true, some sr, some ea => some (.movRmToSeg (segTable sr) ea)
    | _, _, _ => none
  | .movImmReg =>
    match r.reg, r.data with
    | some reg, some data => some (.movImmReg reg data)
    | _, _ => none
  | .movImmRm =>
    match r.ea, r.data with
    | some ea, some data => some (.movImmRm ea data)
    | _, _ => none
  | .movMemToAcc =>
    match r.w, r.address with
    | some w, some addr => some (.movMemToAcc w addr)
    | _, _ => none
  | .movAccToMem =>
    match r.w, r.address with
    | some w, some addr => some (.movAccToMem w addr)
    | _, _ => none
  | .addImm => arithInstr r .addImm .addImmSx
  | .subImm => arithInstr r .subImm .subImmSx
  | .jcc => r.dispLo.map (jccInstr opcode)

/-- The end of the walk (R116): the length, and the operands the resolver yields. A record that stands for no instruction
would be an internal contradiction; no walk over the table of R76 leaves one. -/
def finish (opcode : Byte) (st : Walk) : Except ErrKind (Decoded × Instr) :=
  match st.scheme with
  | none => .error .invalidAddressingState
  | some sch =>
    match st.slots.instr opcode sch with
    | none => .error .invalidAddressingState
    | some i =>
      .ok ({ scheme := sch, mnemonic := st.mnemonic, opcode := opcode, slots := st.slots, operands := i.operands,
             kinds := i.operands.map Operand.kind, len := st.q / 8 }, i)

/-- `decode(p)` (R116): the Decoded Operation and the instruction it stands for, or the error.
The first byte selects the entry (R70, R76); a byte with no entry is unknown (R77). R116 requires that the first byte exists. -/
def decode (fetch : Nat → Option Byte) : Except ErrKind (Decoded × Instr) :=
  match fetch 0 with
  | none => .error .truncatedStream
  | some opcode =>
    match schemeOf opcode with
    | none => .error .unknownOpcode
    | some e =>
      match walk fetch e.scheme.isNone e.fields { q := 0, scheme := e.scheme, mnemonic := e.mnemonic, slots := {} } with
      | .error k => .error k
      | .ok st => finish opcode st

/-- Decoding a list of bytes. -/
def decodeBytes (bs : List Byte) : Except ErrKind (Decoded × Instr) := decode (fun k => bs[k]?)

/-! ### Encoder -/

/-- One bit of an encoding. -/
def bit (b : Bool) : BitVec 1 := BitVec.ofBool b

/-- The ModRM byte: MOD in bits 7:6, the REG position in bits 5:3, RM in bits 2:0 (R79). -/
def modRm (mod : BitVec 2) (mid : BitVec 3) (rm : BitVec 3) : Byte := mod ++ mid ++ rm

/-- The REG position of the segment forms: `0 SR` (R79). -/
def srField (sr : SegReg) : BitVec 3 := 0b0#1 ++ sr.code

/-- A word, low byte first (R54). -/
def wordBytes (v : Word) : List Byte := [loByte v, hiByte v]

/-- The bytes of the EA extension (R80). -/
def Ea.ext : Ea → List Byte
  | .direct a => wordBytes a
  | .mem _ => []
  | .disp8 _ d => [d]
  | .disp16 _ d => wordBytes d
  | .reg _ => []

/-- The ModRM byte and the EA extension. -/
def Ea.bytes (mid : BitVec 3) (ea : Ea) : List Byte := modRm ea.mod mid ea.rm :: ea.ext

/-- The data bytes (R85). -/
def ImmData.bytes : ImmData → List Byte
  | .byte lo => [lo]
  | .word v => wordBytes v

/-- The bytes of an instruction, written from the formats of R70 and the layouts of R76. -/
def encode : Instr → List Byte
  | .movRmReg d w reg ea => (0b100010#6 ++ bit d ++ bit w : Byte) :: ea.bytes reg
  | .movSegToRm sr ea => 0b10001100#8 :: ea.bytes (srField sr)
  | .movRmToSeg sr ea => 0b10001110#8 :: ea.bytes (srField sr)
  | .movImmReg reg data => (0b1011#4 ++ bit data.w ++ reg : Byte) :: data.bytes
  | .movImmRm ea data => (0b1100011#7 ++ bit data.w : Byte) :: (ea.bytes 0b000 ++ data.bytes)
  | .movMemToAcc w addr => (0b1010000#7 ++ bit w : Byte) :: wordBytes addr
  | .movAccToMem w addr => (0b1010001#7 ++ bit w : Byte) :: wordBytes addr
  | .addImm ea data => (0b1000000#7 ++ bit data.w : Byte) :: (ea.bytes 0b000 ++ data.bytes)
  | .addImmSx ea lo => 0b10000011#8 :: (ea.bytes 0b000 ++ [lo])
  | .subImm ea data => (0b1000000#7 ++ bit data.w : Byte) :: (ea.bytes 0b101 ++ data.bytes)
  | .subImmSx ea lo => 0b10000011#8 :: (ea.bytes 0b101 ++ [lo])
  | .jo d => [0b01110000, d]
  | .jno d => [0b01110001, d]
  | .jb d => [0b01110010, d]
  | .jnb d => [0b01110011, d]
  | .je d => [0b01110100, d]
  | .jne d => [0b01110101, d]
  | .jbe d => [0b01110110, d]
  | .ja d => [0b01110111, d]
  | .js d => [0b01111000, d]
  | .jns d => [0b01111001, d]
  | .jp d => [0b01111010, d]
  | .jnp d => [0b01111011, d]
  | .jl d => [0b01111100, d]
  | .jnl d => [0b01111101, d]
  | .jle d => [0b01111110, d]
  | .jg d => [0b01111111, d]

/-! ### The opcode table's words -/

/-- The bytes of a word of spec/opcode_table.json, followed by zeros up to the longest instruction. The table writes the first
byte in stream order in the high half (spec/INDEX.md), so byte 0 is the most significant byte of the `nbits` bits. -/
def tableBytes (nbits w : Nat) : List Byte :=
  (List.range Config.maxLength).map fun k =>
    if k < nbits / 8 then BitVec.ofNat 8 (w / 2 ^ (8 * (nbits / 8 - 1 - k))) else 0

/-- The instruction the decoder reads from a word of spec/opcode_table.json. -/
def decodeTableWord (nbits w : Nat) : Option Instr :=
  match decodeBytes (tableBytes nbits w) with
  | .ok (_, i) => some i
  | .error _ => none

end Sys2Proof
end

