-- ==== Sys2Proof/Machine/Render.lean ====
section
/-!
DEFINITION. The renderer (spec/30_encoding.md R100-R108) and the error codes (spec/60_exceptions.md R200).
-/

namespace Sys2Proof

/-- A number in decimal ASCII with no leading zeros (R107). -/
def decimal (n : Nat) : String := String.ofList (Nat.toDigits 10 n)

/-- A signed number: a negative one is `-` and its magnitude (R107). -/
def signedDecimal (k : Int) : String :=
  if k < 0 then "-" ++ decimal k.natAbs else decimal k.natAbs

/-- `dtext` (R103): nothing for no displacement and for a zero one, else the sign between spaces and the magnitude. -/
def dispText : Option Word → String
  | none => ""
  | some d =>
    if d.toInt = 0 then ""
    else if 0 < d.toInt then " + " ++ decimal d.toInt.natAbs
    else " - " ++ decimal d.toInt.natAbs

/-- The word written before an immediate beside a memory operand (R105). -/
def Tag.text : Tag → String
  | .byte => "byte "
  | .word => "word "

/-- `$` and the signed offset from the jump's first byte, `d + 2` (R106). -/
def relText (d : Byte) : String :=
  let k := d.toInt + 2
  if 0 ≤ k then "$+" ++ decimal k.natAbs else "$-" ++ decimal k.natAbs

/-- One operand (R102-R106). `besideMemory` says that the instruction's other operand is memory, which is when an immediate
shows its width (R105). -/
def Operand.text (besideMemory : Bool) : Operand → String
  | .reg v => v.name
  | .seg s => s.name
  | .mem rm disp => "[" ++ baseText rm ++ dispText disp ++ "]"
  | .direct a => "[" ++ decimal a.toNat ++ "]"
  | .imm v tag => (if besideMemory then tag.text else "") ++ signedDecimal v.toInt
  | .rel d => relText d

/-- Whether an operand is `Mem` or `Direct` (R105). -/
def Operand.isMemory (o : Operand) : Bool := o.kind == .memory

/-- A line from a mnemonic and its operands: `mnemonic op1, op2` (R100) or `mnemonic op1` (R101).
An instruction has one or two operands (R95). -/
def renderLine (mnemonic : String) : List Operand → String
  | [o1, o2] => mnemonic ++ " " ++ o1.text o2.isMemory ++ ", " ++ o2.text o1.isMemory
  | [o1] => mnemonic ++ " " ++ o1.text false
  | _ => mnemonic

/-- `render(rec)` (R112): it reads the Decoded Operation alone (R97). -/
def Decoded.line (rec : Decoded) : String := renderLine rec.mnemonic rec.operands

/-- The line of an instruction. -/
def Instr.line (i : Instr) : String := renderLine i.mnemonic i.operands

/-- The numeric code of an error kind (R200). -/
def ErrKind.code : ErrKind → Nat
  | .unknownOpcode => 1
  | .truncatedStream => 2
  | .invalidAddressingState => 3

end Sys2Proof
end

