-- ==== Sys2Proof/Machine/State.lean ====
section
/-!
DEFINITION. The state of the block (spec/10_state.md R45), the reasons a step can stop, and the state after reset.
-/

namespace Sys2Proof.Machine

/-- The register file: eight independent 16-bit storages (R20). -/
structure RegFile where
  a  : Word
  b  : Word
  c  : Word
  d  : Word
  sp : Word
  bp : Word
  si : Word
  di : Word
  deriving DecidableEq, Repr

/-- The stream as cells (offset, byte); its canonical form is offsets 0, 1, 2, … in order (`Memory.wf`).
An offset that is not listed has no value: it lies beyond the end of the stream (R50, R53). -/
abbrev Memory := List Host.Cell

/-- The run status (R36). -/
inductive Status where
  /-- the block can take a step -/
  | run
  /-- the stream was exhausted at an instruction boundary -/
  | done
  /-- a fatal error ended the run -/
  | fail
  deriving DecidableEq, Repr

/-- The reasons a step stops. -/
inductive Fault where
  /-- Raised by `step` in a state whose status is DONE or FAIL: no step is defined there (R36, R115). Safe. -/
  | runEnded
  deriving DecidableEq, Repr

/-- The reasons an instruction has no meaning. -/
inductive Refusal where
  /-- Raised by an arm of `exec` whose instruction has no meaning yet; no arm does. Safe. -/
  | notModelled (mnemonic : String)
  deriving DecidableEq, Repr

/-- The state (R45), with the two inputs of a run that no step changes (R6, R232). -/
structure State where
  /-- the eight storages (R20) -/
  regs   : RegFile
  /-- the byte cursor: the offset of the next unread byte (R34) -/
  pos    : Nat
  /-- the run status (R36) -/
  status : Status
  /-- the error record: kind, and offset of the failing instruction's first byte (R37) -/
  err    : Option (ErrKind × Nat)
  /-- the output log (R38) -/
  out    : List String
  /-- STREAM, supplied by the host (R6, R50) -/
  stream : Memory
  /-- ON_UNKNOWN_OPCODE, fixed by the host (R6) -/
  policy : Policy
  deriving DecidableEq, Repr

/-- All eight storages are 0 at reset (R32). -/
def RegFile.reset : RegFile := ⟨0, 0, 0, 0, 0, 0, 0, 0⟩

/-- The machine right after reset (R230). The host has supplied no stream yet, and the policy is the default.
DESIGN CHOICE (log 2): the two inputs are not state in R45 and have no reset value there. -/
def State.reset : State where
  regs   := .reset
  pos    := 0
  status := .run
  err    := none
  out    := []
  stream := []
  policy := Config.defaultPolicy

/-- What a step or an instruction answers. -/
abbrev Result := Host.Outcome State Fault Refusal

end Sys2Proof.Machine
end

