-- ==== Sys2Proof/Machine/Ops.lean ====
section
/-!
DEFINITION. The operations over the stream, the register file, the cursor, the output log and the error record that every
meaning and the step are written with.
-/

namespace Sys2Proof.Machine

/-! ### The stream -/

/-- `Fetch(i)` (R9, R53): byte `i` of the stream, none beyond its end. -/
def Memory.fetch : Memory → Nat → Option Byte
  | [], _ => none
  | (a, b) :: m, i => if a = i then some b else Memory.fetch m i

/-- `N`: the length of the stream (R6). -/
def Memory.size (m : Memory) : Nat := m.length

/-- The bytes of a list as cells at offsets `k`, `k + 1`, …. -/
def Memory.loadFrom (k : Nat) : List Byte → Memory
  | [] => []
  | b :: bs => (k, b) :: Memory.loadFrom (k + 1) bs

/-- The stream a host supplies as a sequence of bytes (R232). -/
def Memory.load (bs : List Byte) : Memory := Memory.loadFrom 0 bs

/-- The bytes of the stream in order. -/
def Memory.bytes (m : Memory) : List Byte := m.map Prod.snd

/-- The offsets are `k`, `k + 1`, … in order. -/
def Memory.wfFrom (k : Nat) : Memory → Bool
  | [] => true
  | (a, _) :: m => a == k && Memory.wfFrom (k + 1) m

/-- The canonical form: offsets 0, 1, 2, … in order, with no gap and no repeat (R50). -/
def Memory.wf (m : Memory) : Bool := Memory.wfFrom 0 m

/-- The stream with the bytes `bs` at offsets `p`, `p + 1`, … in place of what was there. No step does this: it stands for a
host that supplies the stream (R232). -/
def Memory.place (m : Memory) (p : Nat) (bs : List Byte) : Memory :=
  m.filter (fun c => c.1 < p) ++ Memory.loadFrom p bs ++ m.filter (fun c => p + bs.length ≤ c.1)

/-- The `n` bytes at offsets `p`, `p + 1`, …, cut at the end of the stream. -/
def Memory.slice (m : Memory) (p : Nat) : Nat → List Byte
  | 0 => []
  | n + 1 =>
    match m.fetch p with
    | none => []
    | some b => b :: Memory.slice m (p + 1) n

/-! ### The register file -/

/-- The contents of a storage. -/
def RegFile.read (r : RegFile) : Storage → Word
  | .a => r.a | .b => r.b | .c => r.c | .d => r.d
  | .sp => r.sp | .bp => r.bp | .si => r.si | .di => r.di

/-- The register file with a new word in one storage; the other seven stay (R20). -/
def RegFile.write (r : RegFile) (st : Storage) (x : Word) : RegFile :=
  match st with
  | .a => { r with a := x }
  | .b => { r with b := x }
  | .c => { r with c := x }
  | .d => { r with d := x }
  | .sp => { r with sp := x }
  | .bp => { r with bp := x }
  | .si => { r with si := x }
  | .di => { r with di := x }

/-- `get(v)` (R22-R24). -/
def RegFile.get (r : RegFile) (v : View) : Word := v.cls.extract (r.read v.storage)

/-- `put(v, x)` (R25-R28). -/
def RegFile.put (r : RegFile) (v : View) (x : Word) : RegFile :=
  r.write v.storage (v.cls.merge (r.read v.storage) x)

/-! ### The state -/

/-- `Fetch` on the state's stream. -/
def State.fetch (s : State) (i : Nat) : Option Byte := s.stream.fetch i

/-- The bytes from the cursor on, as the decoder reads them. -/
def State.fetchAtPos (s : State) (k : Nat) : Option Byte := s.fetch (s.pos + k)

/-- `put` on the state's register file. -/
def State.put (s : State) (v : View) (x : Word) : State := { s with regs := s.regs.put v x }

/-- `emit(line)` (R9, R38). -/
def State.emit (s : State) (line : String) : State := { s with out := s.out ++ [line] }

/-- `pos <- pos + n` (R34). -/
def State.advance (s : State) (n : Nat) : State := { s with pos := s.pos + n }

/-- The commit of an instruction whose register effect has been applied to `s`: its line is emitted and the cursor moves past it
(R112). -/
def commit (i : Instr) (s : State) : Result := .next ((s.emit i.line).advance i.len)

/-- The effect of an instruction with an immediate source on its r/m destination: `f` of the register's value is put back when
the destination is a register (MOD=11), and a memory destination is left alone (R114, R134, R150, R151). -/
def State.updateRm (s : State) (w : Bool) (ea : Ea) (f : Word → Word) : State :=
  match ea with
  | .reg rm => s.put (regTable w rm) (f (s.regs.get (regTable w rm)))
  | .direct _ | .mem _ | .disp8 _ _ | .disp16 _ _ => s

/-- The end of the stream at an instruction boundary (R110). -/
def endOfStream (s : State) : Result := .next { s with status := .done }

/-- An error of the instruction at the cursor: the run ends with the error recorded (R205), or an unknown opcode is skipped by
one byte under skip1 (R206). Nothing else changes (R208). -/
def raiseError (k : ErrKind) (s : State) : Result :=
  match s.policy, k with
  | .skip1, .unknownOpcode => .next (s.advance 1)
  | .skip1, .truncatedStream | .skip1, .invalidAddressingState | .abort, _ =>
    .next { s with status := .fail, err := some (k, s.pos) }

/-- The state in which a run begins: reset, with the stream and the policy the host supplies (R232). -/
def State.start (bs : List Byte) (p : Policy) : State := { State.reset with stream := Memory.load bs, policy := p }

/-- The state with a word of spec/opcode_table.json laid out at the cursor, ready to take a step. -/
def State.placeWord (s : State) (nbits w : Nat) : State :=
  { s with stream := s.stream.place s.pos (tableBytes nbits w), status := .run, err := none }

end Sys2Proof.Machine
end

