-- ==== Sys2Proof/Machine/AddSub.lean ====
section
/-!
DEFINITION. The add/sub immediate group (spec/41_add_sub_imm.md). With MOD=11 the register is updated; a memory destination is
rendered and never accessed (R153). No flag is written.
-/

namespace Sys2Proof.Machine

/-- 80, 81 with selector 000: `put(v, (get(v) + imm) mod 65536)` if MOD=11 (R150). -/
def execAddImm (ea : Ea) (data : ImmData) (s : State) : Result :=
  commit (.addImm ea data) (s.updateRm data.w ea (fun x => addResult x data.value))

/-- 83 with selector 000: the sign-extended byte is added to a word register if MOD=11 (R150). -/
def execAddImmSx (ea : Ea) (lo : Byte) (s : State) : Result :=
  commit (.addImmSx ea lo) (s.updateRm true ea (fun x => addResult x (sext16 lo)))

/-- 80, 81 with selector 101: `put(v, (get(v) - imm) mod 65536)` if MOD=11 (R151). -/
def execSubImm (ea : Ea) (data : ImmData) (s : State) : Result :=
  commit (.subImm ea data) (s.updateRm data.w ea (fun x => subResult x data.value))

/-- 83 with selector 101: the sign-extended byte is subtracted from a word register if MOD=11 (R151). -/
def execSubImmSx (ea : Ea) (lo : Byte) (s : State) : Result :=
  commit (.subImmSx ea lo) (s.updateRm true ea (fun x => subResult x (sext16 lo)))

end Sys2Proof.Machine
end

