-- ==== Sys2Proof/Machine/Jcc.lean ====
section
/-!
DEFINITION. The conditional jumps (spec/42_jcc.md). A jump tests no condition, changes no register and never redirects decoding:
it is rendered, and the cursor moves on by 2 (R170, R187).
-/

namespace Sys2Proof.Machine

/-- 70 (R171, R170). -/
def execJo (disp : Byte) (s : State) : Result := commit (.jo disp) s

/-- 71 (R172, R170). -/
def execJno (disp : Byte) (s : State) : Result := commit (.jno disp) s

/-- 72 (R173, R170). -/
def execJb (disp : Byte) (s : State) : Result := commit (.jb disp) s

/-- 73 (R174, R170). -/
def execJnb (disp : Byte) (s : State) : Result := commit (.jnb disp) s

/-- 74 (R175, R170). -/
def execJe (disp : Byte) (s : State) : Result := commit (.je disp) s

/-- 75 (R176, R170). -/
def execJne (disp : Byte) (s : State) : Result := commit (.jne disp) s

/-- 76 (R177, R170). -/
def execJbe (disp : Byte) (s : State) : Result := commit (.jbe disp) s

/-- 77 (R178, R170). -/
def execJa (disp : Byte) (s : State) : Result := commit (.ja disp) s

/-- 78 (R179, R170). -/
def execJs (disp : Byte) (s : State) : Result := commit (.js disp) s

/-- 79 (R180, R170). -/
def execJns (disp : Byte) (s : State) : Result := commit (.jns disp) s

/-- 7A (R181, R170). -/
def execJp (disp : Byte) (s : State) : Result := commit (.jp disp) s

/-- 7B (R182, R170). -/
def execJnp (disp : Byte) (s : State) : Result := commit (.jnp disp) s

/-- 7C (R183, R170). -/
def execJl (disp : Byte) (s : State) : Result := commit (.jl disp) s

/-- 7D (R184, R170). -/
def execJnl (disp : Byte) (s : State) : Result := commit (.jnl disp) s

/-- 7E (R185, R170). -/
def execJle (disp : Byte) (s : State) : Result := commit (.jle disp) s

/-- 7F (R186, R170). -/
def execJg (disp : Byte) (s : State) : Result := commit (.jg disp) s

end Sys2Proof.Machine
end

