-- ==== Sys2Proof/Machine/Mov.lean ====
section
/-!
DEFINITION. The mov family (spec/40_mov.md). A mov changes a register only when its source is an immediate and its destination
a register (R114); every other form is decoded and rendered, and touches neither register nor memory.
-/

namespace Sys2Proof.Machine

/-- 88-8B: `exec` does nothing, for a register source too (R130). -/
def execMovRmReg (d w : Bool) (reg : BitVec 3) (ea : Ea) (s : State) : Result := commit (.movRmReg d w reg ea) s

/-- 8C: `exec` does nothing (R131). -/
def execMovSegToRm (sr : SegReg) (ea : Ea) (s : State) : Result := commit (.movSegToRm sr ea) s

/-- 8E: `exec` does nothing (R132). -/
def execMovRmToSeg (sr : SegReg) (ea : Ea) (s : State) : Result := commit (.movRmToSeg sr ea) s

/-- B0-BF: `put(regTable(W, REG), imm mod 65536)` (R133). -/
def execMovImmReg (reg : BitVec 3) (data : ImmData) (s : State) : Result :=
  commit (.movImmReg reg data) (s.put (regTable data.w reg) data.value)

/-- C6, C7: `put(regTable(W, RM), imm mod 65536)` if MOD=11, else nothing (R134). -/
def execMovImmRm (ea : Ea) (data : ImmData) (s : State) : Result :=
  commit (.movImmRm ea data) (s.updateRm data.w ea (fun _ => data.value))

/-- A0, A1: `exec` does nothing, memory is never read (R135). -/
def execMovMemToAcc (w : Bool) (addr : Word) (s : State) : Result := commit (.movMemToAcc w addr) s

/-- A2, A3: `exec` does nothing, memory is never written (R136). -/
def execMovAccToMem (w : Bool) (addr : Word) (s : State) : Result := commit (.movAccToMem w addr) s

end Sys2Proof.Machine
end

