-- ==== Sys2Proof/Machine/Dispatch.lean ====
section
/-! DEFINITION. The dispatch of an instruction to its meaning: one arm per constructor of Instr. -/

namespace Sys2Proof.Machine

def exec (i : Instr) (s : State) : Host.Outcome State Fault Refusal :=
  match i with
  | .movRmReg d w reg ea => Sys2Proof.Machine.execMovRmReg d w reg ea s
  | .movSegToRm sr ea => Sys2Proof.Machine.execMovSegToRm sr ea s
  | .movRmToSeg sr ea => Sys2Proof.Machine.execMovRmToSeg sr ea s
  | .movImmReg reg data => Sys2Proof.Machine.execMovImmReg reg data s
  | .movImmRm ea data => Sys2Proof.Machine.execMovImmRm ea data s
  | .movMemToAcc w addr => Sys2Proof.Machine.execMovMemToAcc w addr s
  | .movAccToMem w addr => Sys2Proof.Machine.execMovAccToMem w addr s
  | .addImm ea data => Sys2Proof.Machine.execAddImm ea data s
  | .addImmSx ea lo => Sys2Proof.Machine.execAddImmSx ea lo s
  | .subImm ea data => Sys2Proof.Machine.execSubImm ea data s
  | .subImmSx ea lo => Sys2Proof.Machine.execSubImmSx ea lo s
  | .jo disp => Sys2Proof.Machine.execJo disp s
  | .jno disp => Sys2Proof.Machine.execJno disp s
  | .jb disp => Sys2Proof.Machine.execJb disp s
  | .jnb disp => Sys2Proof.Machine.execJnb disp s
  | .je disp => Sys2Proof.Machine.execJe disp s
  | .jne disp => Sys2Proof.Machine.execJne disp s
  | .jbe disp => Sys2Proof.Machine.execJbe disp s
  | .ja disp => Sys2Proof.Machine.execJa disp s
  | .js disp => Sys2Proof.Machine.execJs disp s
  | .jns disp => Sys2Proof.Machine.execJns disp s
  | .jp disp => Sys2Proof.Machine.execJp disp s
  | .jnp disp => Sys2Proof.Machine.execJnp disp s
  | .jl disp => Sys2Proof.Machine.execJl disp s
  | .jnl disp => Sys2Proof.Machine.execJnl disp s
  | .jle disp => Sys2Proof.Machine.execJle disp s
  | .jg disp => Sys2Proof.Machine.execJg disp s

end Sys2Proof.Machine
end

