-- ==== Sys2Proof/Machine/Step.lean ====
section
/-!
DEFINITION. The step of the block (spec/30_encoding.md R110-R116): one instruction, one error or the end of the stream.
-/

namespace Sys2Proof.Machine

/-- A step from RUN: at the end of the stream it is DONE (R110), else the instruction at the cursor is decoded (R111) and
commits (R112) or its error is raised (R113). -/
def runStep (s : State) : Host.Outcome State Fault Refusal :=
  match s.fetch s.pos with
  | none => endOfStream s
  | some _ =>
    match decode s.fetchAtPos with
    | .ok (_, i) => exec i s
    | .error k => raiseError k s

/-- One step. DONE and FAIL have none (R115). -/
def step (s : State) : Host.Outcome State Fault Refusal :=
  match s.status with
  | .run => runStep s
  | .done | .fail => .fault .runEnded

/-- The state whose very next step fetches and runs the instruction with the bits `w`, numbered as spec/opcode_table.json numbers
them; it stands for the host's supply of the stream (R232). -/
def State.withFetchWord (s : State) (nbits w : Nat) : State := s.placeWord nbits w

end Sys2Proof.Machine
end

