-- ==== Sys2Proof/Machine/Observe.lean ====
section
/-!
DEFINITION. What the host sees beside the state: the event of a commit (spec/10_state.md R39) and the register dump at the end of
the run (spec/10_state.md R42). Both are functions of a state; neither is kept in one.
-/

namespace Sys2Proof.Machine

/-- The event of a commit: start offset, bytes, Decoded Operation and line (R39). -/
structure Event where
  offset : Nat
  bytes  : List Byte
  record : Decoded
  line   : String
  deriving DecidableEq, Repr

/-- The event the next step produces: one if it commits an instruction, else none (R39). -/
def commitEvent (s : State) : Option Event :=
  match s.status, decode s.fetchAtPos with
  | .run, .ok (rec, _) =>
    some { offset := s.pos, bytes := s.stream.slice s.pos rec.len, record := rec, line := rec.line }
  | _, _ => none

/-- A value in binary, most significant bit first, on `n` digits (R42). -/
def binary (n : Nat) (x : Word) : String :=
  String.ofList ((List.range n).map fun k => if x.getLsbD (n - 1 - k) then '1' else '0')

/-- One line of the dump (R42). -/
def dumpLine (r : RegFile) (v : View) : String :=
  match v.cls with
  | .full => v.name ++ ": " ++ binary 16 (r.get v)
  | .lo => v.name ++ " (lo): " ++ binary 8 (r.get v)
  | .hi => v.name ++ " (hi): " ++ binary 8 (r.get v)

/-- The register dump: 16 lines once the run has ended, DONE or FAIL (R42, R233). -/
def dump (s : State) : Option (List String) :=
  match s.status with
  | .run => none
  | .done | .fail => some (View.dumpOrder.map (dumpLine s.regs))

end Sys2Proof.Machine
end

