-- ==== Sys2Proof/Safety.lean ====
section
/-!
DEFINITION. The invariant of the machine and the terms in which its runs are described.
-/

namespace Sys2Proof.Machine

/-- The cursor lies within the stream (R34), and at its end when the run is DONE (R110). -/
abbrev State.CursorInside (s : State) : Prop :=
  s.pos ≤ s.stream.size ∧ (s.status = .done → s.pos = s.stream.size)

/-- There is an error record exactly in FAIL, and it names the offset the cursor still stands at, inside the stream
(R37, R204, R208). -/
abbrev State.ErrorRecorded (s : State) : Prop :=
  match s.err with
  | none => s.status ≠ .fail
  | some (_, o) => s.status = .fail ∧ o = s.pos ∧ o < s.stream.size

/-- Every line of the log took an instruction of at least two bytes (R70, R38). -/
abbrev State.LinesCounted (s : State) : Prop := Config.minLength * s.out.length ≤ s.pos

/-- The invariant every step keeps. -/
structure State.Inv (s : State) : Prop where
  stream : s.stream.wf = true
  cursor : s.CursorInside
  error  : s.ErrorRecorded
  lines  : s.LinesCounted

/-- The instructions of a list, executed in order from a state. -/
def execAll : List Instr → State → Result
  | [], s => .next s
  | i :: is, s =>
    match exec i s with
    | .next t => execAll is t
    | .fault f => .fault f
    | .refused r => .refused r

/-- The bytes of a list of instructions, one after another with no gap (R70). -/
def encodeAll (is : List Instr) : List Byte := is.flatMap encode

end Sys2Proof.Machine

namespace Sys2Proof

/-- The bytes `bs` are what `fetch` finds at offset `k` and after it. -/
def Holds (fetch : Nat → Option Byte) (k : Nat) (bs : List Byte) : Prop := ∀ j, j < bs.length → fetch (k + j) = bs[j]?

/-! ### The slots of a Decoded Operation (R95)

Written from the field lists of R76 and the table of R80, apart from the walker. -/

/-- The slots an r/m operand fills (R80). -/
def Ea.fill (ea : Ea) (r : Slots) : Slots :=
  let r := { r with mod := some ea.mod, rm := some ea.rm }
  match ea with
  | .direct a => { r with addrLo := some (loByte a), addrHi := some (hiByte a) }
  | .mem _ | .reg _ => r
  | .disp8 _ d => { r with dispLo := some d }
  | .disp16 _ d => { r with dispLo := some (loByte d), dispHi := some (hiByte d) }

/-- The slots the data bytes fill, with W (R85). -/
def ImmData.fill (data : ImmData) (r : Slots) : Slots :=
  match data with
  | .byte lo => { r with w := some false, dataLo := some lo }
  | .word v => { r with w := some true, dataLo := some (loByte v), dataHi := some (hiByte v) }

/-- The slots of a conditional jump with condition code `cccc`. -/
def jccSlots (cccc : Nat) (disp : Byte) : Slots := { literals := [(4, 0b0111), (4, cccc)], dispLo := some disp }

/-- The slots of an accumulator form (R76, R94). -/
def accSlots (opcode7 : Nat) (d w : Bool) (addr : Word) : Slots :=
  { literals := [(7, opcode7)], d := some d, w := some w, addrLo := some (loByte addr), addrHi := some (hiByte addr) }

/-- The slots of a group member with its selector; D=0 is implied (R76, R94). -/
def arithSlots (sel : Nat) (s : Bool) : Slots :=
  { literals := [(6, 0b100000), (3, sel)], d := some false, s := some s }

/-- The slots of an instruction's Decoded Operation: one for each field its scheme has (R76, R95), implied ones included (R94). -/
def Instr.recordSlots : Instr → Slots
  | .movRmReg d w reg ea => ea.fill { literals := [(6, 0b100010)], d := some d, w := some w, reg := some reg }
  | .movSegToRm sr ea =>
    ea.fill { literals := [(6, 0b100011), (1, 0), (1, 0)], d := some false, w := some true, sr := some sr.code }
  | .movRmToSeg sr ea =>
    ea.fill { literals := [(6, 0b100011), (1, 0), (1, 0)], d := some true, w := some true, sr := some sr.code }
  | .movImmReg reg data => data.fill { literals := [(4, 0b1011)], d := some true, reg := some reg }
  | .movImmRm ea data => data.fill (ea.fill { literals := [(7, 0b1100011), (3, 0)], d := some false })
  | .movMemToAcc w addr => accSlots 0b1010000 true w addr
  | .movAccToMem w addr => accSlots 0b1010001 false w addr
  | .addImm ea data => data.fill (ea.fill (arithSlots 0b000 false))
  | .addImmSx ea lo => { ea.fill (arithSlots 0b000 true) with w := some true, dataLo := some lo }
  | .subImm ea data => data.fill (ea.fill (arithSlots 0b101 false))
  | .subImmSx ea lo => { ea.fill (arithSlots 0b101 true) with w := some true, dataLo := some lo }
  | .jo d => jccSlots 0x0 d
  | .jno d => jccSlots 0x1 d
  | .jb d => jccSlots 0x2 d
  | .jnb d => jccSlots 0x3 d
  | .je d => jccSlots 0x4 d
  | .jne d => jccSlots 0x5 d
  | .jbe d => jccSlots 0x6 d
  | .ja d => jccSlots 0x7 d
  | .js d => jccSlots 0x8 d
  | .jns d => jccSlots 0x9 d
  | .jp d => jccSlots 0xA d
  | .jnp d => jccSlots 0xB d
  | .jl d => jccSlots 0xC d
  | .jnl d => jccSlots 0xD d
  | .jle d => jccSlots 0xE d
  | .jg d => jccSlots 0xF d

/-! ### The decode scheme table as data (R77, R78) -/

/-- The opcode bytes R77 lists as unknown. -/
def unknownByte (b : Byte) : Bool :=
  let n := b.toNat
  n ≤ 0x6F || n == 0x82 || (0x84 ≤ n && n ≤ 0x87) || n == 0x8D || (0x8F ≤ n && n ≤ 0x9F) || (0xA4 ≤ n && n ≤ 0xAF)
    || (0xC0 ≤ n && n ≤ 0xC5) || 0xC8 ≤ n

/-- A ModRM byte whose bits do not match what R88 requires after this opcode byte. -/
def literalMismatch (opcode modrm : Byte) : Bool :=
  if opcode ∈ [0xC6#8, 0xC7#8] then modrm.extractLsb' 3 3 != 0b000#3
  else if opcode ∈ [0x8C#8, 0x8E#8] then modrm.getLsbD 5
  else if opcode ∈ [0x80#8, 0x81#8, 0x83#8] then modrm.extractLsb' 3 3 != 0b000#3 && modrm.extractLsb' 3 3 != 0b101#3
  else false

/-- Every field of width 1 to 8 lies within one byte (R78, 1), read from bit offset `q` on. The EA extension is whole bytes, so it
does not move the offset within a byte. -/
def insideBytes (q : Nat) : List Field → Bool
  | [] => true
  | f :: fs => (f.width == 0 || 8 < f.width || q % 8 + f.width ≤ 8) && insideBytes (q + f.width) fs

/-- The bit offset within a byte at which the fields end (R78, 2: the fields of one byte sum to exactly 8 bits). -/
def bitsOf (fs : List Field) : Nat := (fs.map Field.width).sum

/-- Every whole-byte field starts at a byte boundary (R78, 3). -/
def bytesAligned (q : Nat) : List Field → Bool
  | [] => true
  | f :: fs =>
    (!([FieldKind.address, .displacement, .dataLow, .dataHigh].contains f.kind) || q % 8 == 0)
      && bytesAligned (q + f.width) fs

/-- Before the first field of kind `k`, if there is one, stands a field of kind `j` (R78, 4 and 5). -/
def comesBefore (j k : FieldKind) : List Field → Bool
  | [] => true
  | f :: fs => f.kind != k && (f.kind == j || comesBefore j k fs)

/-- The fields of the opcode byte sum to exactly 8 bits: some leading fields do (R78, 6). -/
def opcodeByteFilled (fs : List Field) : Bool := (List.range (fs.length + 1)).any fun k => bitsOf (fs.take k) == 8

end Sys2Proof
end

