-- ==== Sys2Proof/Certificates/Slice0/Obligations.lean ====
section
/-!
DEFINITION. The statements about the model. Each docstring names the rule of spec/ it comes from; a clause that rests on a choice
of the spec (its D entries, its [derived] rules) or of the model (log n) says so.
-/

open Sys2Proof Sys2Proof.Machine

/-! ### Reset and the start of a run -/

/-- R230: reset puts every piece of state into its reset value, so all 16 views read 0. -/
def Obligations.ResetPutsEveryFieldAtItsValue : Prop :=
  (∀ st, State.reset.regs.read st = 0) ∧ (∀ v, State.reset.regs.get v = 0) ∧ State.reset.pos = 0 ∧
  State.reset.status = .run ∧ State.reset.err = none ∧ State.reset.out = []

/-- The invariant holds at reset and at the start of every run: with whatever stream and policy the host supplies (R232, whose
text is the spec's decision D25; the reset stream and the form of the stream are the model's choices, log 2 and log 3). The
stream then holds exactly the bytes supplied. -/
def Obligations.RunsStartInTheInvariant : Prop :=
  State.reset.Inv ∧
  ∀ (bs : List Byte) (p : Policy), (State.start bs p).Inv ∧ (State.start bs p).stream.size = bs.length ∧
    (∀ i, (State.start bs p).fetch i = bs[i]?) ∧ (State.start bs p).regs = State.reset.regs ∧ (State.start bs p).pos = 0 ∧
    (State.start bs p).status = .run ∧ (State.start bs p).err = none ∧ (State.start bs p).out = []

/-! ### The step -/

/-- From every state with the invariant, a step that answers a next state keeps it: the stream stays in its form, the cursor
inside it (R34), an error record is there exactly in FAIL and names the failing instruction (R37, R204), and every line took at
least two bytes (R38, R70). -/
def Obligations.StepKeepsTheInvariant : Prop :=
  ∀ s t : State, s.Inv → step s = .next t → t.Inv

/-- No step changes the stream (R58, R64) or the policy (R41, R7). -/
def Obligations.StepNeverChangesStreamOrPolicy : Prop :=
  ∀ s t : State, step s = .next t → t.stream = s.stream ∧ t.policy = s.policy

/-- R115 (marked derived by the spec): a step from RUN always answers a next state, and either the cursor moves on or the run
leaves RUN with the cursor where it was. -/
def Obligations.StepFromRunProgresses : Prop :=
  ∀ s : State, s.status = .run → ∃ t, step s = .next t ∧
    ((t.status = .run ∧ s.pos < t.pos) ∨ (t.status ≠ .run ∧ t.pos = s.pos))

/-- R239 (marked derived by the spec): from every state with the invariant and status RUN, a final state is reached within
`N - pos + 1` steps, so a run from the start ends within `N + 1`. -/
def Obligations.EveryRunEndsWithinTheStreamLength : Prop :=
  ∀ s : State, s.Inv → s.status = .run →
    ∃ k t, k ≤ s.stream.size - s.pos + 1 ∧ Sys2Proof.core.run k s = .next t ∧ t.status ≠ .run

/-- R36, R115: DONE and FAIL are final. That the step answers the fault `runEnded` there is the model's reading (log 5). -/
def Obligations.FinalStatesHaveNoStep : Prop :=
  ∀ s : State, s.status ≠ .run → step s = .fault .runEnded

/-- R110: with status RUN at the end of the stream the step sets DONE and changes nothing else, also for the empty stream, and the
dump is then there. -/
def Obligations.EndOfStreamIsDone : Prop :=
  ∀ s : State, s.stream.wf = true → s.status = .run → s.pos = s.stream.size →
    step s = .next { s with status := .done } ∧
    dump { s with status := .done } = some (View.dumpOrder.map (dumpLine s.regs))

/-- R111, R112: where the bytes at the cursor decode to an instruction, the step from RUN is `exec` of it, with nothing around it. -/
def Obligations.StepRunsTheDecodedInstruction : Prop :=
  ∀ (s : State) (rec : Decoded) (i : Instr), s.status = .run → decode s.fetchAtPos = .ok (rec, i) → step s = exec i s

/-- A step from RUN with the encoding of a well-formed instruction at the cursor is `exec` of that instruction (R111, R112). -/
def Obligations.StepRunsTheEncodedInstruction : Prop :=
  ∀ (s : State) (i : Instr), s.status = .run → i.wf = true → Holds s.fetchAtPos 0 (encode i) → step s = exec i s

/-- R112: a successful decode commits: the record's line is appended, the cursor moves on by the record's length, the status stays
RUN, and nothing but these and the register file changes. -/
def Obligations.CommitAppendsTheLineAndAdvances : Prop :=
  ∀ (s : State) (rec : Decoded) (i : Instr), s.status = .run → decode s.fetchAtPos = .ok (rec, i) →
    ∃ r, exec i s = .next { s with regs := r, out := s.out ++ [rec.line], pos := s.pos + rec.len } ∧
      step s = .next { s with regs := r, out := s.out ++ [rec.line], pos := s.pos + rec.len }

/-! ### Errors -/

/-- R205: under abort an error of any kind sets FAIL and the error record in one step and changes nothing else, and the dump is then
there. -/
def Obligations.AbortRecordsTheError : Prop :=
  ∀ (s : State) (k : ErrKind) (b : Byte), s.status = .run → s.policy = .abort → s.fetch s.pos = some b →
    decode s.fetchAtPos = .error k →
    step s = .next { s with status := .fail, err := some (k, s.pos) } ∧
    (dump { s with status := .fail, err := some (k, s.pos) }).isSome = true

/-- R206 (the spec's decision D2): under skip1 an unknown opcode moves the cursor on by one byte and changes nothing else; the other
two kinds still abort. -/
def Obligations.SkipPassesOverUnknownOpcodesOnly : Prop :=
  ∀ (s : State) (k : ErrKind) (b : Byte), s.status = .run → s.policy = .skip1 → s.fetch s.pos = some b →
    decode s.fetchAtPos = .error k →
    (k = .unknownOpcode → step s = .next { s with pos := s.pos + 1 }) ∧
    (k ≠ .unknownOpcode → step s = .next { s with status := .fail, err := some (k, s.pos) })

/-- R208: a failed step leaves the register file, `out` and `pos` as they were (and the stream and the policy). -/
def Obligations.FailedStepChangesOnlyStatusAndError : Prop :=
  ∀ s t : State, step s = .next t → t.status = .fail →
    t.regs = s.regs ∧ t.out = s.out ∧ t.pos = s.pos ∧ t.stream = s.stream ∧ t.policy = s.policy

/-- R77: the unknown bytes, written out, are exactly those with no entry; at one of them the step raises UnknownOpcode with the start
offset, fatal under abort and skipped by one byte under skip1. -/
def Obligations.UnlistedOpcodeBytesAreUnknown : Prop :=
  (∀ b : Byte, schemeOf b = none ↔ unknownByte b = true) ∧
  ∀ (s : State) (b : Byte), s.status = .run → s.fetch s.pos = some b → unknownByte b = true →
    (s.policy = .abort → step s = .next { s with status := .fail, err := some (.unknownOpcode, s.pos) }) ∧
    (s.policy = .skip1 → step s = .next { s with pos := s.pos + 1 })

/-- R77, R88, R89 (the spec's decisions D5, D7, D27): decoding raises UnknownOpcode exactly when the opcode byte has no entry or the
ModRM byte is there and does not match the literal its form requires, whatever follows. -/
def Obligations.UnknownOpcodeExactly : Prop :=
  ∀ fetch : Nat → Option Byte, decode fetch = .error .unknownOpcode ↔
    ∃ b, fetch 0 = some b ∧ (unknownByte b = true ∨ ∃ m, fetch 1 = some m ∧ literalMismatch b m = true)

/-- R202: an instruction whose encoding is cut by the end of the stream after its first byte raises TruncatedStream, under either
policy and with nothing but the status and the error record changed. A missing first byte raises nothing, the run is DONE: at
`pos = N` that is R202 and R110; in the states with the cursor beyond N, which the second clause takes in too, it is the model's
choice (log 4). -/
def Obligations.CutInstructionIsTruncated : Prop :=
  (∀ (s : State) (i : Instr) (n : Nat), s.status = .run → i.wf = true → 0 < n → n < i.len →
    Holds s.fetchAtPos 0 ((encode i).take n) → s.fetch (s.pos + n) = none →
    step s = .next { s with status := .fail, err := some (.truncatedStream, s.pos) }) ∧
  (∀ s : State, s.status = .run → s.fetch s.pos = none → step s = .next { s with status := .done })

/-- R203 (the spec's decision D28): RM before MOD is kept as a fault of the walker, and no bytes reach it. -/
def Obligations.InvalidAddressingStateIsUnreachable : Prop :=
  (∀ (fetch : Nat → Option Byte) (st : Walk), st.slots.mod = none → walkRm fetch st = .error .invalidAddressingState) ∧
  ∀ fetch : Nat → Option Byte, decode fetch ≠ .error .invalidAddressingState

/-! ### Decoding -/

/-- Decoding the encoding of a well-formed instruction, whatever follows it, gives that instruction, and a record with its scheme,
mnemonic, opcode byte, operands, kinds and length (R95, R96, R116), every slot filled as its scheme's fields say (R95). -/
def Obligations.DecodeOfEncode : Prop :=
  ∀ (fetch : Nat → Option Byte) (i : Instr), i.wf = true → Holds fetch 0 (encode i) →
    ∃ rec, decode fetch = .ok (rec, i) ∧ rec.scheme = i.scheme ∧ rec.mnemonic = i.mnemonic ∧
      (encode i).head? = some rec.opcode ∧ rec.slots = i.recordSlots ∧ rec.operands = i.operands ∧
      rec.kinds = i.operands.map Operand.kind ∧ rec.len = i.len

/-- Whatever bytes decode are the encoding of the instruction they decode to, which is well-formed: each instruction has one
encoding and each encoding one meaning (R70, R76, R80, R99). -/
def Obligations.EncodeOfDecode : Prop :=
  ∀ (fetch : Nat → Option Byte) (rec : Decoded) (i : Instr), decode fetch = .ok (rec, i) →
    i.wf = true ∧ rec.len = (encode i).length ∧ Holds fetch 0 (encode i)

/-- R97: decoding depends only on the `len` bytes from the cursor on, and rendering only on the record: two states in RUN that agree on
those bytes, whatever their registers, cursors, logs and policies, produce the same record and the same line. The result of a decode
that fails is its error kind (R111): it depends on the 6 bytes from the cursor on alone (no instruction is longer, R70), on those
that are there and on where the stream ends. -/
def Obligations.DecodingReadsOnlyItsBytes : Prop :=
  (∀ (s t : State) (e : Event), commitEvent s = some e → t.status = .run →
    (∀ k, k < e.record.len → t.fetchAtPos k = s.fetchAtPos k) →
    ∃ e', commitEvent t = some e' ∧ e'.record = e.record ∧ e'.line = e.line ∧ e.line = e.record.line) ∧
  (∀ (s t : State) (k : ErrKind), decode s.fetchAtPos = .error k →
    (∀ n, n < 6 → t.fetchAtPos n = s.fetchAtPos n) → decode t.fetchAtPos = .error k)

/-- R80: the EA extension. A decoded record with MOD and RM has read the bytes after the ModRM byte that the table says, into their
slots, and no other ones, and it holds the operand the table says. -/
def Obligations.EaExtensionByModAndRm : Prop :=
  ∀ (fetch : Nat → Option Byte) (rec : Decoded) (i : Instr) (m : BitVec 2) (rm : BitVec 3),
    decode fetch = .ok (rec, i) → rec.slots.mod = some m → rec.slots.rm = some rm →
    let read (addrLo addrHi dispLo dispHi : Option Byte) : Prop :=
      rec.slots.addrLo = addrLo ∧ rec.slots.addrHi = addrHi ∧ rec.slots.dispLo = dispLo ∧ rec.slots.dispHi = dispHi
    (m = 0b00 → rm = 0b110 → ∃ lo hi, fetch 2 = some lo ∧ fetch 3 = some hi ∧ read (some lo) (some hi) none none ∧
      .direct (join16 hi lo) ∈ rec.operands) ∧
    (m = 0b00 → rm ≠ 0b110 → read none none none none ∧ .mem rm none ∈ rec.operands) ∧
    (m = 0b01 → ∃ lo, fetch 2 = some lo ∧ read none none (some lo) none ∧ .mem rm (some (sext16 lo)) ∈ rec.operands) ∧
    (m = 0b10 → ∃ lo hi, fetch 2 = some lo ∧ fetch 3 = some hi ∧ read none none (some lo) (some hi) ∧
      .mem rm (some (join16 hi lo)) ∈ rec.operands) ∧
    (m = 0b11 → ∃ w, rec.slots.w = some w ∧ read none none none none ∧ .reg (regTable w rm) ∈ rec.operands)

/-- R85: in every scheme with data bytes `DataLow` is read, and `DataHigh` is read if and only if W=1 and S is absent or 0. -/
def Obligations.DataHighByWAndS : Prop :=
  ∀ (fetch : Nat → Option Byte) (rec : Decoded) (i : Instr), decode fetch = .ok (rec, i) →
    rec.scheme ∈ [Scheme.movImmReg, .movImmRm, .addImm, .subImm] →
    rec.slots.dataLo.isSome = true ∧
    (rec.slots.dataHi.isSome = true ↔ rec.slots.w = some true ∧ (rec.slots.s = none ∨ rec.slots.s = some false))

/-- R96 (marked derived by the spec) and R70: the length of a decoded instruction, from its slots, is the table's, and it is 2 to 6
bytes. -/
def Obligations.LengthsOfInstructions : Prop :=
  ∀ (fetch : Nat → Option Byte) (rec : Decoded) (i : Instr), decode fetch = .ok (rec, i) →
    let e : Nat :=
      if rec.slots.mod = some 0b00 ∧ rec.slots.rm = some 0b110 then 2
      else if rec.slots.mod = some 0b01 then 1 else if rec.slots.mod = some 0b10 then 2 else 0
    let w : Nat := if rec.slots.w = some true then 1 else 0
    2 ≤ rec.len ∧ rec.len ≤ 6 ∧
    rec.len = match rec.scheme with
      | .movRmReg | .movSr => 2 + e
      | .movImmReg => 2 + w
      | .movImmRm => 3 + e + w
      | .addImm | .subImm => 3 + e + (if rec.slots.w = some true ∧ rec.slots.s = some false then 1 else 0)
      | .movMemToAcc | .movAccToMem => 3
      | .jcc => 2

/-- R78: the schemes of the table are well-formed: fields inside bytes, bytes filled, whole-byte fields aligned, MOD before RM, W and S
before DataHigh, the opcode byte filled. Property 2 is read for fields of any width below 8 (log 10). -/
def Obligations.SchemeTableIsWellFormed : Prop :=
  ∀ row ∈ schemeTable, insideBytes 0 row.2.fields = true ∧ bitsOf row.2.fields % 8 = 0 ∧ bytesAligned 0 row.2.fields = true ∧
    comesBefore .mod .rm row.2.fields = true ∧ comesBefore .w .dataHigh row.2.fields = true ∧
    ((row.2.fields.map Field.kind).contains .s = true → comesBefore .s .dataHigh row.2.fields = true) ∧
    opcodeByteFilled row.2.fields = true

/-- The words the document shows (95_test_vectors.md S1-S4) and one of each remaining family decode to the instructions they stand
for. -/
def Obligations.SampleWordsDecode : Prop :=
  (decodeBytes [0x8B, 0xCB]).toOption.map Prod.snd = some (.movRmReg true true 0b001 (.reg 0b011)) ∧
  (decodeBytes [0xB0, 0x05]).toOption.map Prod.snd = some (.movImmReg 0b000 (.byte 0x05)) ∧
  (decodeBytes [0xC6, 0x46, 0x04, 0x07]).toOption.map Prod.snd = some (.movImmRm (.disp8 0b110 0x04) (.byte 0x07)) ∧
  (decodeBytes [0xA1, 0xE8, 0x03]).toOption.map Prod.snd = some (.movMemToAcc true 1000) ∧
  (decodeBytes [0x8C, 0x0E, 0x10, 0x00]).toOption.map Prod.snd = some (.movSegToRm .cs (.direct 16)) ∧
  (decodeBytes [0x83, 0xC6, 0x02]).toOption.map Prod.snd = some (.addImmSx (.reg 0b110) 0x02) ∧
  (decodeBytes [0x81, 0xEC, 0x00, 0x01]).toOption.map Prod.snd = some (.subImm (.reg 0b100) (.word 256)) ∧
  (decodeBytes [0x75, 0xFE]).toOption.map Prod.snd = some (.jne 0xFE)

/-! ### The register file -/

/-- R22, R23, R24: `get` of a full view is the whole storage, of a lo view its bits 7:0 and of a hi view its bits 15:8, zero-extended. -/
def Obligations.GetReadsTheViewsBytes : Prop :=
  ∀ (r : RegFile) (v : View),
    (v.cls = .full → r.get v = r.read v.storage) ∧
    (v.cls = .lo → (r.get v).toNat = (r.read v.storage).toNat % 256) ∧
    (v.cls = .hi → (r.get v).toNat = (r.read v.storage).toNat / 256)

/-- R25, R26, R27: `put` sets the storage of a full view, or one byte of it for a byte view, whose sibling byte stays. R28 (the spec's
decision D10) is the mask of the byte forms; R20: no other storage changes. -/
def Obligations.PutWritesTheViewsBytes : Prop :=
  ∀ (r : RegFile) (v : View) (x : Word),
    (v.cls = .full → (r.put v x).read v.storage = x) ∧
    (v.cls = .lo → (r.put v x).read v.storage = (r.read v.storage &&& 0xFF00) ||| (x &&& 0x00FF)) ∧
    (v.cls = .hi → (r.put v x).read v.storage = (r.read v.storage &&& 0x00FF) ||| ((x &&& 0x00FF) <<< 8)) ∧
    (∀ st, st ≠ v.storage → (r.put v x).read st = r.read st)

/-- R29 (marked derived by the spec): (a) a lo put and a hi put of one storage, in either order, compose in its full view; (b) a byte
put leaves the sibling view; (c) a put leaves every view of another storage; (d) a put is seen by the next get. -/
def Obligations.ViewsAliasTheirStorage : Prop :=
  ∀ (r : RegFile) (f l h : View) (a b : Word),
    f.cls = .full → l.cls = .lo → h.cls = .hi → l.storage = f.storage → h.storage = f.storage →
    (((r.put l a).put h b).get f).toNat = (b.toNat % 256) * 256 + a.toNat % 256 ∧
    (((r.put h b).put l a).get f).toNat = (b.toNat % 256) * 256 + a.toNat % 256 ∧
    (r.put l a).get h = r.get h ∧ (r.put h b).get l = r.get l ∧
    (∀ v u : View, v.storage ≠ u.storage → (r.put v a).get u = r.get u) ∧
    (r.put f a).get f = a ∧ ((r.put l a).get l).toNat = a.toNat % 256 ∧ ((r.put h b).get h).toNat = b.toNat % 256

/-- R30: the two register tables, entry by entry (the codes other than 001 cx, 011 bx and 000 al are the spec's general knowledge G2).
They reach each of the 16 views exactly once, the word table the full views and the byte table the others. -/
def Obligations.RegisterTableReachesEachViewOnce : Prop :=
  (regTable true 0b000 = .ax ∧ regTable true 0b001 = .cx ∧ regTable true 0b010 = .dx ∧ regTable true 0b011 = .bx ∧
    regTable true 0b100 = .sp ∧ regTable true 0b101 = .bp ∧ regTable true 0b110 = .si ∧ regTable true 0b111 = .di) ∧
  (regTable false 0b000 = .al ∧ regTable false 0b001 = .cl ∧ regTable false 0b010 = .dl ∧ regTable false 0b011 = .bl ∧
    regTable false 0b100 = .ah ∧ regTable false 0b101 = .ch ∧ regTable false 0b110 = .dh ∧ regTable false 0b111 = .bh) ∧
  (∀ code, wordView code = regTable true code ∧ byteView code = regTable false code) ∧
  (∀ v : View, ∃ w code, regTable w code = v) ∧
  (∀ w w' code code', regTable w code = regTable w' code' → w = w' ∧ code = code') ∧
  (∀ code, (regTable true code).cls = .full) ∧ (∀ code, (regTable false code).cls ≠ .full)

/-! ### The meanings -/

/-- R112 and R9 for every instruction: `exec` always answers a next state, in which the line is appended and the cursor has moved
past the instruction; status, error record, stream and policy are unchanged. -/
def Obligations.EveryInstructionCommits : Prop :=
  ∀ (i : Instr) (s : State), ∃ t, exec i s = .next t ∧ t.out = s.out ++ [i.line] ∧ t.pos = s.pos + i.len ∧
    t.status = s.status ∧ t.err = s.err ∧ t.stream = s.stream ∧ t.policy = s.policy

/-- R114: the register file changes only for an immediate put into a register, in one storage; then operand 1 is that register and
operand 2 an immediate. Every other instruction leaves all registers. -/
def Obligations.RegistersChangeOnlyByImmediates : Prop :=
  ∀ (i : Instr) (s t : State), exec i s = .next t →
    t.regs = s.regs ∨
    (∃ v x tag, i.operands = [.reg v, .imm x tag] ∧ i.scheme ∈ [Scheme.movImmReg, .movImmRm, .addImm, .subImm] ∧
      (i.recordSlots.mod = none ∨ i.recordSlots.mod = some 0b11) ∧
      ∀ st, st ≠ v.storage → t.regs.read st = s.regs.read st)

/-- R130: 88-8B render the two operands in the order D says and do nothing else, for registers too. -/
def Obligations.MovRegisterMemoryOnlyRenders : Prop :=
  ∀ (d w : Bool) (reg : BitVec 3) (ea : Ea) (s : State),
    exec (.movRmReg d w reg ea) s = .next { s with
      out := s.out ++ [if d then "mov " ++ (regTable w reg).name ++ ", " ++ (ea.operand w).text false
                       else "mov " ++ (ea.operand w).text false ++ ", " ++ (regTable w reg).name]
      pos := s.pos + 2 + ea.extLen }

/-- R131, R132 (the spec's decision D8): 8C and 8E render the segment register's name beside a word or memory operand and do nothing
else; there is no segment register to change (R33). The four names and codes of R33 (the spec's general knowledge G4) stand beside
them: the SR field that names a register, its code, and its name. -/
def Obligations.SegmentMovesOnlyRender : Prop :=
  (∀ (sr : SegReg) (ea : Ea) (s : State),
    exec (.movSegToRm sr ea) s = .next { s with
      out := s.out ++ ["mov " ++ (ea.operand true).text false ++ ", " ++ sr.name], pos := s.pos + 2 + ea.extLen } ∧
    exec (.movRmToSeg sr ea) s = .next { s with
      out := s.out ++ ["mov " ++ sr.name ++ ", " ++ (ea.operand true).text false], pos := s.pos + 2 + ea.extLen }) ∧
  (∀ (b : Bool) (sr : SegReg), (Operand.seg sr).text b = sr.name ∧ segTable sr.code = sr) ∧
  SegReg.es.code = 0b00 ∧ SegReg.cs.code = 0b01 ∧ SegReg.ss.code = 0b10 ∧ SegReg.ds.code = 0b11 ∧
  SegReg.es.name = "es" ∧ SegReg.cs.name = "cs" ∧ SegReg.ss.name = "ss" ∧ SegReg.ds.name = "ds"

/-- R135, R136: the accumulator forms render the address, unsigned, beside ax or al (the decimal form is the spec's decision D14), and
touch neither a register nor memory. -/
def Obligations.AccumulatorMovesOnlyRender : Prop :=
  ∀ (w : Bool) (addr : Word) (s : State),
    exec (.movMemToAcc w addr) s = .next { s with
      out := s.out ++ ["mov " ++ (if w then "ax" else "al") ++ ", " ++ ("[" ++ decimal addr.toNat ++ "]")], pos := s.pos + 3 } ∧
    exec (.movAccToMem w addr) s = .next { s with
      out := s.out ++ ["mov " ++ ("[" ++ decimal addr.toNat ++ "]") ++ ", " ++ (if w then "ax" else "al")], pos := s.pos + 3 }

/-- R133: a byte immediate sets its byte register to exactly the data byte, a word immediate its word register; every other byte of the
register file stays. The decimal form of the line is the spec's decision D12. -/
def Obligations.MovImmediateToRegister : Prop :=
  (∀ (reg : BitVec 3) (lo : Byte) (s : State), ∃ r,
    exec (.movImmReg reg (.byte lo)) s = .next { s with
      regs := r, out := s.out ++ ["mov " ++ (byteView reg).name ++ ", " ++ signedDecimal lo.toInt], pos := s.pos + 2 } ∧
    r.get (byteView reg) = zext16 lo ∧
    (∀ v : View, v.cls ≠ .full → v ≠ byteView reg → r.get v = s.regs.get v) ∧
    (∀ st, st ≠ (byteView reg).storage → r.read st = s.regs.read st)) ∧
  (∀ (reg : BitVec 3) (x : Word) (s : State), ∃ r,
    exec (.movImmReg reg (.word x)) s = .next { s with
      regs := r, out := s.out ++ ["mov " ++ (wordView reg).name ++ ", " ++ signedDecimal x.toInt], pos := s.pos + 3 } ∧
    r.get (wordView reg) = x ∧
    (∀ st, st ≠ (wordView reg).storage → r.read st = s.regs.read st))

/-- R134 (MOD=11 as a register destination is the spec's decision D32): with a register destination C6 and C7 write the immediate into
it and show no width; with a memory destination nothing but the log and the cursor changes, and the line shows the width (R105). -/
def Obligations.MovImmediateToRegisterOrMemory : Prop :=
  (∀ (rm : BitVec 3) (data : ImmData) (s : State), ∃ r,
    exec (.movImmRm (.reg rm) data) s = .next { s with
      regs := r, out := s.out ++ ["mov " ++ (regTable data.w rm).name ++ ", " ++ signedDecimal data.value.toInt]
      pos := s.pos + 2 + data.len } ∧
    (data.w = true → r.get (wordView rm) = data.value) ∧
    (data.w = false → (r.get (byteView rm)).toNat = data.value.toNat % 256 ∧
      ∀ v : View, v.cls ≠ .full → v ≠ byteView rm → r.get v = s.regs.get v) ∧
    (∀ st, st ≠ (regTable data.w rm).storage → r.read st = s.regs.read st)) ∧
  (∀ (ea : Ea) (data : ImmData) (s : State), (∀ rm, ea ≠ .reg rm) →
    exec (.movImmRm ea data) s = .next { s with
      out := s.out ++ ["mov " ++ (ea.operand data.w).text false ++ ", " ++ (if data.w then "word " else "byte ") ++ signedDecimal data.value.toInt]
      pos := s.pos + 2 + ea.extLen + data.len })

/-- R150, R152 (the wrap is the spec's decision D11, the byte put its D10): with a register destination 80, 81 and 83 add the signed
immediate, modulo 2^16 for a word register and modulo 2^8 for a byte register, whose sibling byte stays; the sign extension of a
byte immediate does not change a byte result. With a memory destination nothing but the log and the cursor changes. -/
def Obligations.AddImmediate : Prop :=
  (∀ (rm : BitVec 3) (x : Word) (s : State), ∃ r,
    exec (.addImm (.reg rm) (.word x)) s = .next { s with
      regs := r, out := s.out ++ ["add " ++ (wordView rm).name ++ ", " ++ signedDecimal x.toInt], pos := s.pos + 4 } ∧
    ((r.get (wordView rm)).toNat : Int) = ((s.regs.get (wordView rm)).toNat + x.toInt) % 65536 ∧
    (∀ st, st ≠ (wordView rm).storage → r.read st = s.regs.read st)) ∧
  (∀ (rm : BitVec 3) (lo : Byte) (s : State), ∃ r,
    exec (.addImmSx (.reg rm) lo) s = .next { s with
      regs := r, out := s.out ++ ["add " ++ (wordView rm).name ++ ", " ++ signedDecimal lo.toInt], pos := s.pos + 3 } ∧
    ((r.get (wordView rm)).toNat : Int) = ((s.regs.get (wordView rm)).toNat + lo.toInt) % 65536 ∧
    (∀ st, st ≠ (wordView rm).storage → r.read st = s.regs.read st)) ∧
  (∀ (rm : BitVec 3) (lo : Byte) (s : State), ∃ r,
    exec (.addImm (.reg rm) (.byte lo)) s = .next { s with
      regs := r, out := s.out ++ ["add " ++ (byteView rm).name ++ ", " ++ signedDecimal lo.toInt], pos := s.pos + 3 } ∧
    ((r.get (byteView rm)).toNat : Int) = ((s.regs.get (byteView rm)).toNat + lo.toInt) % 256 ∧
    (r.get (byteView rm)).toNat = ((s.regs.get (byteView rm)).toNat + lo.toNat) % 256 ∧
    (∀ v : View, v.cls ≠ .full → v ≠ byteView rm → r.get v = s.regs.get v) ∧
    (∀ st, st ≠ (byteView rm).storage → r.read st = s.regs.read st)) ∧
  (∀ (ea : Ea) (data : ImmData) (lo : Byte) (s : State), (∀ rm, ea ≠ .reg rm) →
    exec (.addImm ea data) s = .next { s with
      out := s.out ++ ["add " ++ (ea.operand data.w).text false ++ ", " ++ (if data.w then "word " else "byte ") ++ signedDecimal data.value.toInt]
      pos := s.pos + 2 + ea.extLen + data.len } ∧
    exec (.addImmSx ea lo) s = .next { s with
      out := s.out ++ ["add " ++ (ea.operand true).text false ++ ", word " ++ signedDecimal lo.toInt]
      pos := s.pos + 3 + ea.extLen })

/-- R151, R152 (as for add): 80, 81 and 83 subtract the signed immediate. -/
def Obligations.SubImmediate : Prop :=
  (∀ (rm : BitVec 3) (x : Word) (s : State), ∃ r,
    exec (.subImm (.reg rm) (.word x)) s = .next { s with
      regs := r, out := s.out ++ ["sub " ++ (wordView rm).name ++ ", " ++ signedDecimal x.toInt], pos := s.pos + 4 } ∧
    ((r.get (wordView rm)).toNat : Int) = ((s.regs.get (wordView rm)).toNat - x.toInt) % 65536 ∧
    (∀ st, st ≠ (wordView rm).storage → r.read st = s.regs.read st)) ∧
  (∀ (rm : BitVec 3) (lo : Byte) (s : State), ∃ r,
    exec (.subImmSx (.reg rm) lo) s = .next { s with
      regs := r, out := s.out ++ ["sub " ++ (wordView rm).name ++ ", " ++ signedDecimal lo.toInt], pos := s.pos + 3 } ∧
    ((r.get (wordView rm)).toNat : Int) = ((s.regs.get (wordView rm)).toNat - lo.toInt) % 65536 ∧
    (∀ st, st ≠ (wordView rm).storage → r.read st = s.regs.read st)) ∧
  (∀ (rm : BitVec 3) (lo : Byte) (s : State), ∃ r,
    exec (.subImm (.reg rm) (.byte lo)) s = .next { s with
      regs := r, out := s.out ++ ["sub " ++ (byteView rm).name ++ ", " ++ signedDecimal lo.toInt], pos := s.pos + 3 } ∧
    ((r.get (byteView rm)).toNat : Int) = ((s.regs.get (byteView rm)).toNat - lo.toInt) % 256 ∧
    ((r.get (byteView rm)).toNat : Int) = ((s.regs.get (byteView rm)).toNat - (lo.toNat : Int)) % 256 ∧
    (∀ v : View, v.cls ≠ .full → v ≠ byteView rm → r.get v = s.regs.get v) ∧
    (∀ st, st ≠ (byteView rm).storage → r.read st = s.regs.read st)) ∧
  (∀ (ea : Ea) (data : ImmData) (lo : Byte) (s : State), (∀ rm, ea ≠ .reg rm) →
    exec (.subImm ea data) s = .next { s with
      out := s.out ++ ["sub " ++ (ea.operand data.w).text false ++ ", " ++ (if data.w then "word " else "byte ") ++ signedDecimal data.value.toInt]
      pos := s.pos + 2 + ea.extLen + data.len } ∧
    exec (.subImmSx ea lo) s = .next { s with
      out := s.out ++ ["sub " ++ (ea.operand true).text false ++ ", word " ++ signedDecimal lo.toInt]
      pos := s.pos + 3 + ea.extLen })

/-- R170-R187 (mnemonics and operand text are the spec's decisions D16, D15): each of the 16 jumps has its opcode byte, renders its
mnemonic and the offset from its own first byte, and moves the cursor on by 2; no condition is tested and nothing else changes. -/
def Obligations.JumpsOnlyRenderAndAdvance : Prop :=
  ∀ (d : Byte) (s : State),
    let commits (i : Instr) (opcode : Byte) (mnemonic : String) : Prop :=
      encode i = [opcode, d] ∧ exec i s = .next { s with
        out := s.out ++ [mnemonic ++ " $" ++ (if 0 ≤ d.toInt + 2 then "+" else "-") ++ decimal (d.toInt + 2).natAbs]
        pos := s.pos + 2 }
    commits (.jo d) 0x70 "jo" ∧ commits (.jno d) 0x71 "jno" ∧ commits (.jb d) 0x72 "jb" ∧ commits (.jnb d) 0x73 "jnb" ∧
    commits (.je d) 0x74 "je" ∧ commits (.jne d) 0x75 "jne" ∧ commits (.jbe d) 0x76 "jbe" ∧ commits (.ja d) 0x77 "ja" ∧
    commits (.js d) 0x78 "js" ∧ commits (.jns d) 0x79 "jns" ∧ commits (.jp d) 0x7A "jp" ∧ commits (.jnp d) 0x7B "jnp" ∧
    commits (.jl d) 0x7C "jl" ∧ commits (.jnl d) 0x7D "jnl" ∧ commits (.jle d) 0x7E "jle" ∧ commits (.jg d) 0x7F "jg"

/-! ### Rendering and what the host sees -/

/-- R107 (the spec's decisions D12, D23): a number is written in decimal digits only, `0` as `0` and any other number with no leading
zero, and reads back as itself. A signed number is its magnitude, with `-` before it when it is negative and no sign when not. -/
def Obligations.DecimalTextReadsBack : Prop :=
  (∀ n : Nat, (∀ c ∈ (decimal n).toList, '0' ≤ c ∧ c ≤ '9') ∧ (decimal n).toList ≠ [] ∧
    (n ≠ 0 → (decimal n).toList.head? ≠ some '0') ∧
    (decimal n).toList.foldl (fun acc c => acc * 10 + (c.toNat - '0'.toNat)) 0 = n) ∧
  decimal 0 = "0" ∧
  (∀ k : Int, (0 ≤ k → signedDecimal k = decimal k.toNat) ∧ (k < 0 → signedDecimal k = "-" ++ decimal (-k).toNat))

/-- R90, R103, R104 (the spec's decisions D13, D14; the rows of R90 other than 110 are its general knowledge G3): a memory operand is
its base expression in brackets, with a nonzero displacement's sign between spaces and its magnitude in decimal; the eight base
expressions, row by row; a direct address is its unsigned value in brackets. -/
def Obligations.MemoryOperandText : Prop :=
  (∀ (b : Bool) (rm : BitVec 3) (k : Word),
    (Operand.mem rm none).text b = "[" ++ baseText rm ++ "]" ∧
    (k.toInt = 0 → (Operand.mem rm (some k)).text b = "[" ++ baseText rm ++ "]") ∧
    (0 < k.toInt → (Operand.mem rm (some k)).text b = "[" ++ baseText rm ++ " + " ++ decimal k.toInt.toNat ++ "]") ∧
    (k.toInt < 0 → (Operand.mem rm (some k)).text b = "[" ++ baseText rm ++ " - " ++ decimal (-k.toInt).toNat ++ "]") ∧
    (Operand.direct k).text b = "[" ++ decimal k.toNat ++ "]") ∧
  baseText 0b000 = "bx + si" ∧ baseText 0b001 = "bx + di" ∧ baseText 0b010 = "bp + si" ∧ baseText 0b011 = "bp + di" ∧
  baseText 0b100 = "si" ∧ baseText 0b101 = "di" ∧ baseText 0b110 = "bp" ∧ baseText 0b111 = "bx"

/-- R39 (the spec's decision D24): a step that commits, and only such a step, produces an event: the start offset, the instruction's
bytes, its Decoded Operation, which is the record its bytes decode to, and that record's line, which the step appends. -/
def Obligations.EventsReportCommits : Prop :=
  ∀ s t : State, step s = .next t →
    (∀ e, commitEvent s = some e → e.offset = s.pos ∧ (∃ i, decode s.fetchAtPos = .ok (e.record, i) ∧ exec i s = .next t) ∧
      e.bytes.length = e.record.len ∧ Holds s.fetchAtPos 0 e.bytes ∧ e.line = e.record.line ∧
      t.out = s.out ++ [e.line] ∧ t.pos = s.pos + e.record.len) ∧
    (∀ rec i, decode s.fetchAtPos = .ok (rec, i) → ∃ e, commitEvent s = some e ∧ e.record = rec) ∧
    (commitEvent s = none → t.out = s.out ∧ t.regs = s.regs)

/-- R42 (order and layout are the spec's decision D17): a final state has a dump of 16 lines, one per view in the dump order of R21,
each with the view's name, its suffix and its value in binary, most significant bit first, on 16 or 8 digits; a running state has
none. The order is that of R21, view by view, so each view has exactly one line, and so are the names. -/
def Obligations.DumpShowsTheSixteenViews : Prop :=
  (∀ s : State, (s.status = .run → dump s = none) ∧
    (s.status ≠ .run → ∃ lines : List String, dump s = some lines ∧ lines.length = 16 ∧
      ∀ (k : Nat) (v : View), View.dumpOrder[k]? = some v → ∃ bits : List Char,
        lines[k]? = some (v.name ++ (match v.cls with | .full => ": " | .lo => " (lo): " | .hi => " (hi): ") ++ String.ofList bits) ∧
        bits.length = (if v.cls = .full then 16 else 8) ∧ (∀ c ∈ bits, c = '0' ∨ c = '1') ∧
        bits.foldl (fun acc c => acc * 2 + (if c = '1' then 1 else 0)) 0 = (s.regs.get v).toNat)) ∧
  View.dumpOrder = [.ax, .al, .ah, .bx, .bl, .bh, .cx, .cl, .ch, .dx, .dl, .dh, .sp, .bp, .si, .di] ∧
  (∀ v : View, ∃ k : Nat, View.dumpOrder[k]? = some v ∧ ∀ j : Nat, View.dumpOrder[j]? = some v → j = k) ∧
  View.dumpOrder.map View.name =
    ["ax", "al", "ah", "bx", "bl", "bh", "cx", "cl", "ch", "dx", "dl", "dh", "sp", "bp", "si", "di"]

/-- R97: the registers never reach the text. Two states that differ in their registers alone step to states that differ in their
registers alone, and produce the same event. -/
def Obligations.RegistersNeverReachTheText : Prop :=
  ∀ (s t : State) (r : RegFile), step s = .next t →
    ∃ r', step { s with regs := r } = .next { t with regs := r' } ∧ commitEvent { s with regs := r } = commitEvent s

/-! ### Whole runs -/

/-- A stream that from the cursor on is the encodings of well-formed instructions, one after another (R70), is run as those
instructions in order: one step each, one line each, and then DONE at the end of the stream. -/
def Obligations.StreamOfInstructionsRunsToDone : Prop :=
  ∀ (s : State) (is : List Instr), s.stream.wf = true → s.status = .run → (∀ i ∈ is, i.wf = true) →
    Holds s.fetchAtPos 0 (encodeAll is) → s.pos + (encodeAll is).length = s.stream.size →
    ∃ t, execAll is s = .next t ∧ t.out = s.out ++ is.map Instr.line ∧ t.pos = s.stream.size ∧
      Sys2Proof.core.run is.length s = .next t ∧
      Sys2Proof.core.run (is.length + 1) s = .next { t with status := .done }

/-- Whatever stream a run under abort brings to DONE is a sequence of encodings of well-formed instructions; the log is their lines
in order, and the registers are the ones their execution in order leaves. -/
def Obligations.DoneRunIsADisassembly : Prop :=
  ∀ (bs : List Byte) (k : Nat) (t : State),
    Sys2Proof.core.run k (State.start bs .abort) = .next t → t.status = .done →
    ∃ is : List Instr, (∀ i ∈ is, i.wf = true) ∧ encodeAll is = bs ∧ t.out = is.map Instr.line ∧
      execAll is (State.start bs .abort) = .next { t with status := .run }

/-- R206 (the spec's decision D2): a step under skip1 that stays in RUN without committing has skipped one byte and nothing else:
no line, no register, no error record. -/
def Obligations.SkippedBytesLeaveNoTrace : Prop :=
  ∀ s t : State, s.policy = .skip1 → step s = .next t → t.status = .run → commitEvent s = none →
    t = { s with pos := s.pos + 1 }

/-! ### Tables of the spec -/

/-- R21, R43: the storage and the class of each of the 16 views. Their names are in DumpShowsTheSixteenViews, their codes in
RegisterTableReachesEachViewOnce. -/
def Obligations.ViewsAreThoseOfTheTable : Prop :=
  (View.ax.storage = .a ∧ View.al.storage = .a ∧ View.ah.storage = .a ∧ View.bx.storage = .b ∧ View.bl.storage = .b ∧
    View.bh.storage = .b ∧ View.cx.storage = .c ∧ View.cl.storage = .c ∧ View.ch.storage = .c ∧ View.dx.storage = .d ∧
    View.dl.storage = .d ∧ View.dh.storage = .d ∧ View.sp.storage = .sp ∧ View.bp.storage = .bp ∧ View.si.storage = .si ∧
    View.di.storage = .di) ∧
  (View.ax.cls = .full ∧ View.al.cls = .lo ∧ View.ah.cls = .hi ∧ View.bx.cls = .full ∧ View.bl.cls = .lo ∧ View.bh.cls = .hi ∧
    View.cx.cls = .full ∧ View.cl.cls = .lo ∧ View.ch.cls = .hi ∧ View.dx.cls = .full ∧ View.dl.cls = .lo ∧ View.dh.cls = .hi ∧
    View.sp.cls = .full ∧ View.bp.cls = .full ∧ View.si.cls = .full ∧ View.di.cls = .full)

/-- R200 (the spec's decision D18): the codes of the three error kinds. -/
def Obligations.ErrorKindsHaveTheirCodes : Prop :=
  ErrKind.unknownOpcode.code = 1 ∧ ErrKind.truncatedStream.code = 2 ∧ ErrKind.invalidAddressingState.code = 3
end

