-- ==== Sys2Proof/Laws/Regs.lean ====
section
/-! SUPPORT. The register file: what a read sees after a write, and what `put` does to a storage. -/

namespace Sys2Proof.Machine

@[simp] theorem RegFile.read_write_same (r : RegFile) (st : Storage) (x : Word) : (r.write st x).read st = x := by
  cases st <;> rfl

theorem RegFile.read_write_other (r : RegFile) {st st' : Storage} (x : Word) (h : st' ≠ st) :
    (r.write st x).read st' = r.read st' := by
  cases st <;> cases st' <;> first | rfl | exact absurd rfl h

theorem RegFile.read_write (r : RegFile) (st st' : Storage) (x : Word) :
    (r.write st x).read st' = if st' = st then x else r.read st' := by
  by_cases h : st' = st
  · simp [h]
  · simp [h, r.read_write_other x h]

/-- Two register files that read the same everywhere are the same. -/
theorem RegFile.ext_read {r q : RegFile} (h : ∀ st, r.read st = q.read st) : r = q := by
  cases r; cases q
  simpa [RegFile.read] using And.intro (h .a) (And.intro (h .b) (And.intro (h .c) (And.intro (h .d)
    (And.intro (h .sp) (And.intro (h .bp) (And.intro (h .si) (h .di)))))))

/-- The one place `put` changes, and how. -/
theorem RegFile.read_put (r : RegFile) (v : View) (x : Word) (st : Storage) :
    (r.put v x).read st = if st = v.storage then v.cls.merge (r.read v.storage) x else r.read st :=
  r.read_write _ _ _

theorem RegFile.read_put_other (r : RegFile) (v : View) (x : Word) {st : Storage} (h : st ≠ v.storage) :
    (r.put v x).read st = r.read st := by
  simp [RegFile.read_put, h]

/-- The narrowed exact sum is the 16-bit sum. -/
theorem addResult_eq (x imm : Word) : addResult x imm = x + imm := by
  simp [addResult, BitVec.ofInt_add]

/-- The narrowed exact difference is the 16-bit difference. -/
theorem subResult_eq (x imm : Word) : subResult x imm = x - imm := by
  simp [subResult, Int.sub_eq_add_neg, BitVec.ofInt_add, BitVec.ofInt_neg, BitVec.sub_eq_add_neg]

theorem loByte_toNat (v : Word) : (loByte v).toNat = v.toNat % 256 := by
  simp [loByte]

theorem hiByte_toNat (v : Word) : (hiByte v).toNat = v.toNat / 256 := by
  have := v.isLt
  simp [hiByte, Nat.shiftRight_eq_div_pow]
  omega

theorem zext16_toNat (b : Byte) : (zext16 b).toNat = b.toNat := by
  have := b.isLt
  simp [zext16]
  omega

theorem join16_toNat (hi lo : Byte) : (join16 hi lo).toNat = hi.toNat * 256 + lo.toNat := by
  show (hi ++ lo).toNat = _
  rw [BitVec.toNat_append, Nat.shiftLeft_eq, Nat.mul_comm, ← Nat.two_pow_add_eq_or_of_lt lo.isLt, Nat.mul_comm]

@[simp] theorem loByte_join16 (hi lo : Byte) : loByte (join16 hi lo) = lo := by
  apply BitVec.eq_of_toNat_eq
  have := lo.isLt
  rw [loByte_toNat, join16_toNat]
  omega

@[simp] theorem hiByte_join16 (hi lo : Byte) : hiByte (join16 hi lo) = hi := by
  apply BitVec.eq_of_toNat_eq
  have := lo.isLt
  rw [hiByte_toNat, join16_toNat]
  omega

@[simp] theorem join16_bytes (v : Word) : join16 (hiByte v) (loByte v) = v := by
  apply BitVec.eq_of_toNat_eq
  rw [join16_toNat, hiByte_toNat, loByte_toNat]
  omega

/-- Bytes beside each other are told apart by their bits. -/
theorem eq_join16_of_bits {v : Word} {hi lo : Byte}
    (h : ∀ i, i < 16 → v.getLsbD i = if i < 8 then lo.getLsbD i else hi.getLsbD (i - 8)) : v = join16 hi lo := by
  show _ = (_ ++ _ : BitVec (8 + 8))
  apply BitVec.eq_of_getLsbD_eq
  intro i hi'
  rw [BitVec.getLsbD_append, h i hi']

/-- A put through a lo view puts the new low byte beside the old high byte (R26). -/
theorem merge_lo (old x : Word) : ViewClass.lo.merge old x = join16 (hiByte old) (loByte x) := by
  apply eq_join16_of_bits
  intro i hi
  simp only [ViewClass.merge, hiByte, loByte, BitVec.getLsbD_or, BitVec.getLsbD_and, BitVec.getLsbD_extractLsb']
  interval_cases i <;> simp

/-- A put through a hi view puts the new byte beside the old low byte (R27). -/
theorem merge_hi (old x : Word) : ViewClass.hi.merge old x = join16 (loByte x) (loByte old) := by
  apply eq_join16_of_bits
  intro i hi
  simp only [ViewClass.merge, loByte, BitVec.getLsbD_or, BitVec.getLsbD_and, BitVec.getLsbD_extractLsb',
    BitVec.getLsbD_shiftLeft]
  interval_cases i <;> simp

/-- What a view shows, as a number (R22-R24). -/
theorem RegFile.get_toNat (r : RegFile) (v : View) :
    (r.get v).toNat = match v.cls with
      | .full => (r.read v.storage).toNat
      | .lo => (r.read v.storage).toNat % 256
      | .hi => (r.read v.storage).toNat / 256 := by
  cases h : v.cls <;> simp [RegFile.get, h, ViewClass.extract, zext16_toNat, loByte_toNat, hiByte_toNat]

/-- What a put leaves in its own storage, as a number (R25-R28). -/
theorem RegFile.read_put_toNat (r : RegFile) (v : View) (x : Word) :
    ((r.put v x).read v.storage).toNat = match v.cls with
      | .full => x.toNat
      | .lo => (r.read v.storage).toNat / 256 * 256 + x.toNat % 256
      | .hi => x.toNat % 256 * 256 + (r.read v.storage).toNat % 256 := by
  cases h : v.cls
  · simp [RegFile.read_put, h, ViewClass.merge]
  · simp only [RegFile.read_put, h, merge_lo, join16_toNat, hiByte_toNat, loByte_toNat, if_true]
  · simp only [RegFile.read_put, h, merge_hi, join16_toNat, loByte_toNat, if_true]

/-- A get after a put through the same full view. -/
theorem RegFile.get_put_full (r : RegFile) {v : View} (x : Word) (h : v.cls = .full) : (r.put v x).get v = x := by
  simp [RegFile.get, RegFile.read_put, h, ViewClass.merge, ViewClass.extract]

/-- A get after a put through the same byte view. -/
theorem RegFile.get_put_byte (r : RegFile) {v : View} (x : Word) (h : v.cls ≠ .full) :
    ((r.put v x).get v).toNat = x.toNat % 256 := by
  have e := r.read_put_toNat v x
  rw [RegFile.get_toNat]
  cases hc : v.cls
  · exact absurd hc h
  · simp only [hc] at e ⊢; omega
  · simp only [hc] at e ⊢; omega

/-- A put through one byte view leaves every other byte view. -/
theorem RegFile.get_put_other_byte (r : RegFile) {v u : View} (x : Word) (hv : v.cls ≠ .full) (hu : u.cls ≠ .full)
    (h : v ≠ u) : (r.put u x).get v = r.get v := by
  by_cases hs : v.storage = u.storage
  · have e := r.read_put_toNat u x
    have L := (r.read u.storage).isLt
    apply BitVec.eq_of_toNat_eq
    simp only [RegFile.get_toNat, hs]
    cases v <;> cases u <;> simp_all [View.cls, View.storage] <;> omega
  · simp [RegFile.get, r.read_put_other u x hs]

end Sys2Proof.Machine
end

