-- ==== Sys2Proof/Laws/Decode.lean ====
section
/-! SUPPORT. The bit cursor on the bytes an encoding writes, and what each part of the walker does on them. -/

namespace Sys2Proof

@[simp] theorem bitField_modRm_mod : ∀ (m : BitVec 2) (mid rm : BitVec 3), bitField (modRm m mid rm) 0 2 = m.toNat := by decide

@[simp] theorem bitField_modRm_mid : ∀ (m : BitVec 2) (mid rm : BitVec 3), bitField (modRm m mid rm) 2 3 = mid.toNat := by decide

@[simp] theorem bitField_modRm_rm : ∀ (m : BitVec 2) (mid rm : BitVec 3), bitField (modRm m mid rm) 5 3 = rm.toNat := by decide

/-- The segment forms split the REG position into a 0 and the SR code. -/
@[simp] theorem bitField_modRm_srZero :
    ∀ (m : BitVec 2) (sr : BitVec 2) (rm : BitVec 3), bitField (modRm m (0b0#1 ++ sr) rm) 2 1 = 0 := by decide

@[simp] theorem bitField_modRm_sr :
    ∀ (m : BitVec 2) (sr : BitVec 2) (rm : BitVec 3), bitField (modRm m (0b0#1 ++ sr) rm) 3 2 = sr.toNat := by decide

@[simp] theorem bitField_byte (b : Byte) : bitField b 0 8 = b.toNat := by
  have := b.isLt
  simp [bitField]
  omega

/-- Every byte is the ModRM byte of its three fields. -/
theorem modRm_fields : ∀ b : Byte, modRm (b.extractLsb' 6 2) (b.extractLsb' 3 3) (b.extractLsb' 0 3) = b := by decide

@[simp] theorem segTable_code (sr : SegReg) : segTable sr.code = sr := by cases sr <;> rfl

@[simp] theorem code_segTable : ∀ c : BitVec 2, (segTable c).code = c := by decide

theorem takeBits_some {fetch : Nat → Option Byte} {q w : Nat} {b : Byte} (h : fetch (q / 8) = some b) :
    takeBits fetch q w = .ok (bitField b (q % 8) w, q + w) := by
  simp [takeBits, h]

theorem takeBits_none {fetch : Nat → Option Byte} {q w : Nat} (h : fetch (q / 8) = none) :
    takeBits fetch q w = .error .truncatedStream := by
  simp [takeBits, h]

/-- A whole byte read at byte offset `k`. -/
theorem takeByte_some {fetch : Nat → Option Byte} {k : Nat} {b : Byte} (h : fetch k = some b) :
    takeByte fetch (8 * k) = .ok (b, 8 * (k + 1)) := by
  have h8 : fetch (8 * k / 8) = some b := by rwa [Nat.mul_div_cancel_left _ (by decide)]
  simp [takeByte, takeBits_some h8]
  omega

theorem takeByte_none {fetch : Nat → Option Byte} {k : Nat} (h : fetch k = none) :
    takeByte fetch (8 * k) = .error .truncatedStream := by
  have h8 : fetch (8 * k / 8) = none := by rwa [Nat.mul_div_cancel_left _ (by decide)]
  simp [takeByte, takeBits_none h8]

theorem Holds.cons {fetch : Nat → Option Byte} {k : Nat} {b : Byte} {bs : List Byte} (h : Holds fetch k (b :: bs)) :
    fetch k = some b ∧ Holds fetch (k + 1) bs := by
  refine ⟨by simpa using h 0 (by simp), fun j hj => ?_⟩
  have := h (j + 1) (by simpa using hj)
  simpa [Nat.add_assoc, Nat.add_comm 1 j] using this

theorem Holds.append {fetch : Nat → Option Byte} {k : Nat} {bs cs : List Byte} (h : Holds fetch k (bs ++ cs)) :
    Holds fetch k bs ∧ Holds fetch (k + bs.length) cs := by
  refine ⟨fun j hj => ?_, fun j hj => ?_⟩
  · rw [h j (by simp; omega), List.getElem?_append_left hj]
  · rw [Nat.add_assoc, h (bs.length + j) (by simp; omega), List.getElem?_append_right (by omega)]
    simp

/-- The record an EA extension leaves: MOD and RM are in it already (R80). -/
theorem walkEa_ext {fetch : Nat → Option Byte} {k : Nat} {ea : Ea} (wf : ea.wf = true) (h : Holds fetch k ea.ext)
    (st : Walk) (hq : st.q = 8 * k) (hm : st.slots.mod = some ea.mod) (hr : st.slots.rm = some ea.rm) :
    walkEa fetch ea.mod ea.rm st = .ok { st with q := 8 * (k + ea.extLen), slots := ea.fill st.slots } := by
  obtain ⟨q, sch, mn, slots⟩ := st
  simp at hq hm hr
  subst hq
  have fillSelf : ({ slots with mod := some ea.mod, rm := some ea.rm } : Slots) = slots := by
    cases slots; simp_all
  cases ea with
  | direct a =>
    obtain ⟨h0, h1⟩ := Holds.cons h
    obtain ⟨h1, -⟩ := Holds.cons h1
    simp [walkEa, walkAddress, Ea.mod, Ea.rm, takeByte_some h0, takeByte_some h1, Ea.extLen, Ea.fill] at *
    cases slots; simp_all
  | mem rm =>
    have : rm ≠ 0b110#3 := by simpa [Ea.wf] using wf
    simp [walkEa, Ea.mod, Ea.rm, Ea.extLen, Ea.fill, this] at *
    cases slots; simp_all
  | disp8 rm d =>
    obtain ⟨h0, -⟩ := Holds.cons h
    simp [walkEa, walkDisp8, Ea.mod, Ea.rm, takeByte_some h0, Ea.extLen, Ea.fill] at *
    cases slots; simp_all
  | disp16 rm d =>
    obtain ⟨h0, h1⟩ := Holds.cons h
    obtain ⟨h1, -⟩ := Holds.cons h1
    simp [walkEa, walkDisp16, Ea.mod, Ea.rm, takeByte_some h0, takeByte_some h1, Ea.extLen, Ea.fill] at *
    cases slots; simp_all
  | reg rm =>
    simp [walkEa, Ea.mod, Ea.rm, Ea.extLen, Ea.fill] at *
    cases slots; simp_all

/-- The r/m operand is read back from the slots it fills (R80). -/
theorem Slots.ea_fill (ea : Ea) (wf : ea.wf = true) (r : Slots) : (ea.fill r).ea = some ea := by
  cases ea with
  | mem rm =>
    have : rm ≠ 0b110#3 := by simpa [Ea.wf] using wf
    simp [Ea.fill, Slots.ea, Ea.mod, Ea.rm, this]
  | _ => simp [Ea.fill, Slots.ea, Ea.mod, Ea.rm]

/-- The data bytes are read back from the slots they fill (R85). -/
theorem Slots.data_fill (data : ImmData) (r : Slots) (h : r.dataHi = none) : (data.fill r).data = some data := by
  cases data <;> simp [ImmData.fill, Slots.data, h]

theorem Ea.length_ext (ea : Ea) : ea.ext.length = ea.extLen := by cases ea <;> rfl

theorem Ea.length_bytes (mid : BitVec 3) (ea : Ea) : (ea.bytes mid).length = 1 + ea.extLen := by
  simp [Ea.bytes, Ea.length_ext, Nat.add_comm]

theorem ImmData.length_bytes (data : ImmData) : data.bytes.length = data.len := by cases data <;> rfl

/-- The walk over a scheme's fields is the walk over the first ones and then over the rest. -/
theorem walk_append (fetch : Nat → Option Byte) (group : Bool) (fs gs : List Field) (st : Walk) :
    walk fetch group (fs ++ gs) st =
      match walk fetch group fs st with
      | .error e => .error e
      | .ok st' => walk fetch group gs st' := by
  induction fs generalizing st with
  | nil => rfl
  | cons f fs ih =>
    simp only [List.cons_append, walk]
    cases walkField fetch group f st with
    | error e => rfl
    | ok st' => exact ih st'

/-- A decoded instruction has its opcode byte in the stream. -/
theorem decode_ok_fetch {fetch : Nat → Option Byte} {p : Decoded × Instr} (h : decode fetch = .ok p) :
    ∃ b, fetch 0 = some b := by
  unfold decode at h
  cases h0 : fetch 0 with
  | none => simp [h0] at h
  | some b => exact ⟨b, rfl⟩

end Sys2Proof
end

