-- ==== Sys2Proof/Laws/State.lean ====
section
/-! SUPPORT. One lemma per field and update of State, so that no proof unfolds a record update. -/

namespace Sys2Proof.Machine

@[simp] theorem State.put_regs (s : State) (v : View) (x : Word) : (s.put v x).regs = s.regs.put v x := rfl
@[simp] theorem State.put_pos (s : State) (v : View) (x : Word) : (s.put v x).pos = s.pos := rfl
@[simp] theorem State.put_status (s : State) (v : View) (x : Word) : (s.put v x).status = s.status := rfl
@[simp] theorem State.put_err (s : State) (v : View) (x : Word) : (s.put v x).err = s.err := rfl
@[simp] theorem State.put_out (s : State) (v : View) (x : Word) : (s.put v x).out = s.out := rfl
@[simp] theorem State.put_stream (s : State) (v : View) (x : Word) : (s.put v x).stream = s.stream := rfl
@[simp] theorem State.put_policy (s : State) (v : View) (x : Word) : (s.put v x).policy = s.policy := rfl

@[simp] theorem State.emit_regs (s : State) (line : String) : (s.emit line).regs = s.regs := rfl
@[simp] theorem State.emit_pos (s : State) (line : String) : (s.emit line).pos = s.pos := rfl
@[simp] theorem State.emit_status (s : State) (line : String) : (s.emit line).status = s.status := rfl
@[simp] theorem State.emit_err (s : State) (line : String) : (s.emit line).err = s.err := rfl
@[simp] theorem State.emit_out (s : State) (line : String) : (s.emit line).out = s.out ++ [line] := rfl
@[simp] theorem State.emit_stream (s : State) (line : String) : (s.emit line).stream = s.stream := rfl
@[simp] theorem State.emit_policy (s : State) (line : String) : (s.emit line).policy = s.policy := rfl

@[simp] theorem State.advance_regs (s : State) (n : Nat) : (s.advance n).regs = s.regs := rfl
@[simp] theorem State.advance_pos (s : State) (n : Nat) : (s.advance n).pos = s.pos + n := rfl
@[simp] theorem State.advance_status (s : State) (n : Nat) : (s.advance n).status = s.status := rfl
@[simp] theorem State.advance_err (s : State) (n : Nat) : (s.advance n).err = s.err := rfl
@[simp] theorem State.advance_out (s : State) (n : Nat) : (s.advance n).out = s.out := rfl
@[simp] theorem State.advance_stream (s : State) (n : Nat) : (s.advance n).stream = s.stream := rfl
@[simp] theorem State.advance_policy (s : State) (n : Nat) : (s.advance n).policy = s.policy := rfl

@[simp] theorem State.updateRm_pos (s : State) (w : Bool) (ea : Ea) (g : Word → Word) : (s.updateRm w ea g).pos = s.pos := by
  cases ea <;> rfl
@[simp] theorem State.updateRm_status (s : State) (w : Bool) (ea : Ea) (g : Word → Word) : (s.updateRm w ea g).status = s.status := by
  cases ea <;> rfl
@[simp] theorem State.updateRm_err (s : State) (w : Bool) (ea : Ea) (g : Word → Word) : (s.updateRm w ea g).err = s.err := by
  cases ea <;> rfl
@[simp] theorem State.updateRm_out (s : State) (w : Bool) (ea : Ea) (g : Word → Word) : (s.updateRm w ea g).out = s.out := by
  cases ea <;> rfl
@[simp] theorem State.updateRm_stream (s : State) (w : Bool) (ea : Ea) (g : Word → Word) : (s.updateRm w ea g).stream = s.stream := by
  cases ea <;> rfl
@[simp] theorem State.updateRm_policy (s : State) (w : Bool) (ea : Ea) (g : Word → Word) : (s.updateRm w ea g).policy = s.policy := by
  cases ea <;> rfl

/-- A memory destination is left alone. -/
theorem State.updateRm_memory (s : State) (w : Bool) (ea : Ea) (g : Word → Word) (h : ∀ rm, ea ≠ .reg rm) :
    s.updateRm w ea g = s := by
  cases ea with
  | reg rm => exact absurd rfl (h rm)
  | _ => rfl

@[simp] theorem State.updateRm_reg (s : State) (w : Bool) (rm : BitVec 3) (g : Word → Word) :
    s.updateRm w (.reg rm) g = s.put (regTable w rm) (g (s.regs.get (regTable w rm))) := rfl

@[simp] theorem State.start_regs (bs : List Byte) (p : Policy) : (State.start bs p).regs = RegFile.reset := rfl
@[simp] theorem State.start_pos (bs : List Byte) (p : Policy) : (State.start bs p).pos = 0 := rfl
@[simp] theorem State.start_status (bs : List Byte) (p : Policy) : (State.start bs p).status = .run := rfl
@[simp] theorem State.start_err (bs : List Byte) (p : Policy) : (State.start bs p).err = none := rfl
@[simp] theorem State.start_out (bs : List Byte) (p : Policy) : (State.start bs p).out = [] := rfl
@[simp] theorem State.start_stream (bs : List Byte) (p : Policy) : (State.start bs p).stream = Memory.load bs := rfl
@[simp] theorem State.start_policy (bs : List Byte) (p : Policy) : (State.start bs p).policy = p := rfl

/-- Two states with the same fields are the same state. -/
theorem State.ext_fields {s t : State} (h1 : s.regs = t.regs) (h2 : s.pos = t.pos) (h3 : s.status = t.status)
    (h4 : s.err = t.err) (h5 : s.out = t.out) (h6 : s.stream = t.stream) (h7 : s.policy = t.policy) : s = t := by
  cases s; cases t; simp_all

end Sys2Proof.Machine
end

