-- ==== Sys2Proof/Laws/Memory.lean ====
section
/-! SUPPORT. The stream: its canonical form is kept by every operation, and what `fetch` sees. -/

namespace Sys2Proof.Machine

theorem Memory.wfFrom_loadFrom (k : Nat) (bs : List Byte) : Memory.wfFrom k (Memory.loadFrom k bs) = true := by
  induction bs generalizing k with
  | nil => rfl
  | cons b bs ih => simp [Memory.loadFrom, Memory.wfFrom, ih]

/-- A loaded stream has the canonical form. -/
theorem Memory.wf_load (bs : List Byte) : (Memory.load bs).wf = true := Memory.wfFrom_loadFrom 0 bs

/-- A stream in canonical form is the load of its bytes. -/
theorem Memory.loadFrom_bytes {k : Nat} {m : Memory} (h : Memory.wfFrom k m = true) : Memory.loadFrom k m.bytes = m := by
  induction m generalizing k with
  | nil => rfl
  | cons c m ih =>
    simp [Memory.wfFrom] at h
    simp [Memory.bytes, Memory.loadFrom] at ih ⊢
    refine ⟨?_, ih h.2⟩
    rw [← h.1]

theorem Memory.load_bytes {m : Memory} (h : m.wf = true) : Memory.load m.bytes = m := Memory.loadFrom_bytes h

theorem Memory.fetch_loadFrom_below (k : Nat) (bs : List Byte) {i : Nat} (h : i < k) :
    (Memory.loadFrom k bs).fetch i = none := by
  induction bs generalizing k with
  | nil => rfl
  | cons b bs ih =>
    simp [Memory.loadFrom, Memory.fetch, show k ≠ i by omega, ih (k + 1) (by omega)]

theorem Memory.fetch_loadFrom (k : Nat) (bs : List Byte) (i : Nat) : (Memory.loadFrom k bs).fetch (k + i) = bs[i]? := by
  induction bs generalizing k i with
  | nil => simp [Memory.loadFrom, Memory.fetch]
  | cons b bs ih =>
    cases i with
    | zero => simp [Memory.loadFrom, Memory.fetch]
    | succ i => simpa [Memory.loadFrom, Memory.fetch, Nat.add_comm, Nat.add_left_comm] using ih (k + 1) i

/-- `Fetch(i)` of a loaded stream is its byte `i` (R53). -/
theorem Memory.fetch_load (bs : List Byte) (i : Nat) : (Memory.load bs).fetch i = bs[i]? := by
  simpa [Memory.load] using Memory.fetch_loadFrom 0 bs i

theorem Memory.size_loadFrom (k : Nat) (bs : List Byte) : (Memory.loadFrom k bs).length = bs.length := by
  induction bs generalizing k with
  | nil => rfl
  | cons b bs ih => simp [Memory.loadFrom, ih]

@[simp] theorem Memory.size_load (bs : List Byte) : (Memory.load bs).size = bs.length := Memory.size_loadFrom 0 bs

theorem Memory.bytes_loadFrom (k : Nat) (bs : List Byte) : (Memory.loadFrom k bs).bytes = bs := by
  induction bs generalizing k with
  | nil => rfl
  | cons b bs ih => simpa [Memory.loadFrom, Memory.bytes] using ih (k + 1)

@[simp] theorem Memory.bytes_load (bs : List Byte) : (Memory.load bs).bytes = bs := Memory.bytes_loadFrom 0 bs

/-- In the canonical form the stream's byte `i` is byte `i` of its list of bytes. -/
theorem Memory.fetch_eq_bytes {m : Memory} (h : m.wf = true) (i : Nat) : m.fetch i = m.bytes[i]? := by
  conv_lhs => rw [← Memory.load_bytes h]
  exact Memory.fetch_load _ _

theorem Memory.length_bytes (m : Memory) : m.bytes.length = m.size := by simp [Memory.bytes, Memory.size]

/-- A byte is there exactly below the end of the stream (R53). -/
theorem Memory.fetch_isSome {m : Memory} (h : m.wf = true) (i : Nat) : (m.fetch i).isSome = true ↔ i < m.size := by
  rw [Memory.fetch_eq_bytes h, ← Memory.length_bytes]
  simp

theorem Memory.fetch_eq_none {m : Memory} (h : m.wf = true) (i : Nat) : m.fetch i = none ↔ m.size ≤ i := by
  rw [Memory.fetch_eq_bytes h, ← Memory.length_bytes]
  simp

theorem Memory.lt_size_of_fetch {m : Memory} (h : m.wf = true) {i : Nat} {b : Byte} (hb : m.fetch i = some b) : i < m.size :=
  (Memory.fetch_isSome h i).1 (by simp [hb])

/-! ### Placing bytes -/

theorem Memory.wfFrom_append (k : Nat) (m n : Memory) :
    Memory.wfFrom k (m ++ n) = (Memory.wfFrom k m && Memory.wfFrom (k + m.length) n) := by
  induction m generalizing k with
  | nil => simp [Memory.wfFrom]
  | cons c m ih => simp [Memory.wfFrom, ih, Bool.and_assoc, Nat.add_assoc, Nat.add_comm]

theorem Memory.filter_below_loadFrom (k p : Nat) (bs : List Byte) :
    (Memory.loadFrom k bs).filter (fun c => c.1 < p) = Memory.loadFrom k (bs.take (p - k)) := by
  induction bs generalizing k with
  | nil => simp [Memory.loadFrom]
  | cons b bs ih =>
    by_cases h : k < p
    · obtain ⟨n, hn⟩ : ∃ n, p - k = n + 1 := ⟨p - k - 1, by omega⟩
      have : p - (k + 1) = n := by omega
      simp [Memory.loadFrom, h, ih, hn, this]
    · have h0 : p - k = 0 := by omega
      have h1 : p - (k + 1) = 0 := by omega
      simp [Memory.loadFrom, h, ih, h0, h1]

theorem Memory.filter_above_loadFrom (k p : Nat) (bs : List Byte) (h : k ≤ p) :
    (Memory.loadFrom k bs).filter (fun c => p ≤ c.1) = Memory.loadFrom p (bs.drop (p - k)) := by
  induction bs generalizing k with
  | nil => simp [Memory.loadFrom]
  | cons b bs ih =>
    rcases Nat.lt_or_ge k p with hk | hk
    · obtain ⟨n, hn⟩ : ∃ n, p - k = n + 1 := ⟨p - k - 1, by omega⟩
      have : p - (k + 1) = n := by omega
      simp [Memory.loadFrom, show ¬ p ≤ k by omega, ih (k + 1) (by omega), hn, this]
    · obtain rfl : k = p := by omega
      have all : ∀ (j : Nat) (cs : List Byte), k ≤ j →
          (Memory.loadFrom j cs).filter (fun c => k ≤ c.1) = Memory.loadFrom j cs := by
        intro j cs hj
        induction cs generalizing j with
        | nil => rfl
        | cons c cs ihc => simp [Memory.loadFrom, hj, ihc (j + 1) (by omega)]
      simpa using all k (b :: bs) (Nat.le_refl k)

/-- What placing bytes makes of a loaded stream. -/
theorem Memory.place_load (cs bs : List Byte) (p : Nat) (hp : p ≤ cs.length) :
    (Memory.load cs).place p bs = Memory.load (cs.take p ++ bs ++ cs.drop (p + bs.length)) := by
  have append : ∀ (k : Nat) (xs ys : List Byte),
      Memory.loadFrom k (xs ++ ys) = Memory.loadFrom k xs ++ Memory.loadFrom (k + xs.length) ys := by
    intro k xs ys
    induction xs generalizing k with
    | nil => simp [Memory.loadFrom]
    | cons x xs ih => simp [Memory.loadFrom, ih, Nat.add_assoc, Nat.add_comm]
  unfold Memory.place Memory.load
  rw [Memory.filter_below_loadFrom, Memory.filter_above_loadFrom _ _ _ (Nat.zero_le _), append, append]
  simp [hp]

/-- Placing bytes at an offset within the stream keeps the canonical form. -/
theorem Memory.wf_place {m : Memory} (h : m.wf = true) {p : Nat} (hp : p ≤ m.size) (bs : List Byte) :
    (m.place p bs).wf = true := by
  rw [← Memory.load_bytes h, Memory.place_load _ _ _ (by rwa [Memory.length_bytes])]
  exact Memory.wf_load _

/-- The placed bytes are what `fetch` then finds there. -/
theorem Memory.fetch_place {m : Memory} (h : m.wf = true) {p : Nat} (hp : p ≤ m.size) (bs : List Byte) {k : Nat}
    (hk : k < bs.length) : (m.place p bs).fetch (p + k) = bs[k]? := by
  have hp' : p ≤ m.bytes.length := by rwa [Memory.length_bytes]
  rw [← Memory.load_bytes h, Memory.place_load _ _ _ hp', Memory.fetch_load]
  simp [List.getElem?_append, hp', hk]

/-! ### Slices -/

/-- A slice whose bytes are all there has its full length, and `fetch`'s bytes. -/
theorem Memory.slice_eq {m : Memory} {p : Nat} {bs : List Byte} (h : ∀ k, k < bs.length → m.fetch (p + k) = bs[k]?) :
    m.slice p bs.length = bs := by
  induction bs generalizing p with
  | nil => rfl
  | cons b bs ih =>
    have h0 := h 0 (by simp)
    simp at h0
    simp [Memory.slice, h0]
    refine ih (fun k hk => ?_)
    have := h (k + 1) (by simpa using hk)
    simpa [Nat.add_assoc, Nat.add_comm 1 k] using this

end Sys2Proof.Machine
end

