-- ==== Sys2Proof/Laws/PerInstr.lean ====
section
/-! SUPPORT. Statements about every instruction, one lemma per constructor. -/

namespace Sys2Proof.Laws.EncodedLength

/-- The encoding of an instruction has as many bytes as the table of R96 says. -/
def Statement (i : Instr) : Prop := (encode i).length = i.len

theorem movRmReg (d w : Bool) (reg : BitVec 3) (ea : Ea) : Statement (.movRmReg d w reg ea) := by
  simp [Statement, encode, Instr.len, Ea.length_bytes]
  omega

theorem movSegToRm (sr : SegReg) (ea : Ea) : Statement (.movSegToRm sr ea) := by
  simp [Statement, encode, Instr.len, Ea.length_bytes]
  omega

theorem movRmToSeg (sr : SegReg) (ea : Ea) : Statement (.movRmToSeg sr ea) := by
  simp [Statement, encode, Instr.len, Ea.length_bytes]
  omega

theorem movImmReg (reg : BitVec 3) (data : ImmData) : Statement (.movImmReg reg data) := by
  simp [Statement, encode, Instr.len, ImmData.length_bytes]
  omega

theorem movImmRm (ea : Ea) (data : ImmData) : Statement (.movImmRm ea data) := by
  simp [Statement, encode, Instr.len, Ea.length_bytes, ImmData.length_bytes]
  omega

theorem movMemToAcc (w : Bool) (addr : Word) : Statement (.movMemToAcc w addr) := rfl

theorem movAccToMem (w : Bool) (addr : Word) : Statement (.movAccToMem w addr) := rfl

theorem addImm (ea : Ea) (data : ImmData) : Statement (.addImm ea data) := by
  simp [Statement, encode, Instr.len, Ea.length_bytes, ImmData.length_bytes]
  omega

theorem addImmSx (ea : Ea) (lo : Byte) : Statement (.addImmSx ea lo) := by
  simp [Statement, encode, Instr.len, Ea.length_bytes]
  omega

theorem subImm (ea : Ea) (data : ImmData) : Statement (.subImm ea data) := by
  simp [Statement, encode, Instr.len, Ea.length_bytes, ImmData.length_bytes]
  omega

theorem subImmSx (ea : Ea) (lo : Byte) : Statement (.subImmSx ea lo) := by
  simp [Statement, encode, Instr.len, Ea.length_bytes]
  omega

theorem jo (disp : Byte) : Statement (.jo disp) := rfl

theorem jno (disp : Byte) : Statement (.jno disp) := rfl

theorem jb (disp : Byte) : Statement (.jb disp) := rfl

theorem jnb (disp : Byte) : Statement (.jnb disp) := rfl

theorem je (disp : Byte) : Statement (.je disp) := rfl

theorem jne (disp : Byte) : Statement (.jne disp) := rfl

theorem jbe (disp : Byte) : Statement (.jbe disp) := rfl

theorem ja (disp : Byte) : Statement (.ja disp) := rfl

theorem js (disp : Byte) : Statement (.js disp) := rfl

theorem jns (disp : Byte) : Statement (.jns disp) := rfl

theorem jp (disp : Byte) : Statement (.jp disp) := rfl

theorem jnp (disp : Byte) : Statement (.jnp disp) := rfl

theorem jl (disp : Byte) : Statement (.jl disp) := rfl

theorem jnl (disp : Byte) : Statement (.jnl disp) := rfl

theorem jle (disp : Byte) : Statement (.jle disp) := rfl

theorem jg (disp : Byte) : Statement (.jg disp) := rfl

end Sys2Proof.Laws.EncodedLength
end

