-- ==== Sys2Proof/Laws/Step.lean ====
section
/-! SUPPORT. What the shared operations answer, and the inversion of a step: every next state comes about in one of three ways. -/

namespace Sys2Proof.Machine

/-- A commit always answers a next state, and this is it. -/
theorem commit_eq (i : Instr) (s : State) :
    commit i s = .next { s with out := s.out ++ [i.line], pos := s.pos + i.len } := rfl

/-- An update of the r/m destination changes the register file at most. -/
theorem State.updateRm_eq (s : State) (w : Bool) (ea : Ea) (g : Word → Word) :
    s.updateRm w ea g = { s with regs := (s.updateRm w ea g).regs } := by
  cases ea <;> rfl

theorem State.put_eq (s : State) (v : View) (x : Word) : s.put v x = { s with regs := s.regs.put v x } := rfl

/-- An error either skips one byte or ends the run. -/
theorem raiseError_eq (k : ErrKind) (s : State) :
    raiseError k s =
      if s.policy = .skip1 ∧ k = .unknownOpcode then .next { s with pos := s.pos + 1 }
      else .next { s with status := .fail, err := some (k, s.pos) } := by
  obtain ⟨regs, pos, status, err, out, stream, policy⟩ := s
  cases policy <;> cases k <;> simp [raiseError, State.advance]

theorem endOfStream_eq (s : State) : endOfStream s = .next { s with status := .done } := rfl

/-- The first byte the decoder reads is the byte at the cursor. -/
@[simp] theorem State.fetchAtPos_zero (s : State) : s.fetchAtPos 0 = s.fetch s.pos := rfl

/-- A step from RUN where the bytes decode. -/
theorem step_of_decode {s : State} {rec : Decoded} {i : Instr} (hs : s.status = .run)
    (h : decode s.fetchAtPos = .ok (rec, i)) : step s = exec i s := by
  obtain ⟨b, hb⟩ := decode_ok_fetch h
  simp at hb
  simp [step, hs, runStep, hb, h]

/-- A step from RUN at the end of the stream (R110). -/
theorem step_of_none {s : State} (hs : s.status = .run) (h : s.fetch s.pos = none) :
    step s = .next { s with status := .done } := by
  simp [step, hs, runStep, h, endOfStream_eq]

/-- A step from RUN where decoding fails (R113). -/
theorem step_of_error {s : State} {b : Byte} {k : ErrKind} (hs : s.status = .run) (hb : s.fetch s.pos = some b)
    (h : decode s.fetchAtPos = .error k) : step s = raiseError k s := by
  simp [step, hs, runStep, hb, h]

/-- Every next state comes about by the end of the stream, by a commit or by an error. -/
theorem step_cases {s t : State} (h : step s = .next t) :
    s.status = .run ∧
    ((s.fetch s.pos = none ∧ t = { s with status := .done }) ∨
     (∃ rec i, decode s.fetchAtPos = .ok (rec, i) ∧ exec i s = .next t) ∨
     (∃ b k, s.fetch s.pos = some b ∧ decode s.fetchAtPos = .error k ∧ raiseError k s = .next t)) := by
  unfold step at h
  cases hs : s.status with
  | done => simp [hs] at h
  | fail => simp [hs] at h
  | run =>
    refine ⟨rfl, ?_⟩
    simp only [hs, runStep] at h
    cases hf : s.fetch s.pos with
    | none =>
      simp only [hf, endOfStream_eq, Host.Outcome.next.injEq] at h
      exact .inl ⟨rfl, h.symm⟩
    | some b =>
      simp only [hf] at h
      cases hd : decode s.fetchAtPos with
      | ok p =>
        simp only [hd] at h
        exact .inr (.inl ⟨p.1, p.2, rfl, h⟩)
      | error k =>
        simp only [hd] at h
        exact .inr (.inr ⟨b, k, rfl, rfl, h⟩)

/-- The word laid out at the cursor is what the next step decodes (R232). -/
theorem State.fetch_withFetchWord {s : State} (h : s.stream.wf = true) (hp : s.pos ≤ s.stream.size) (nbits w k : Nat)
    (hk : k < Config.maxLength) : (s.withFetchWord nbits w).fetchAtPos k = (tableBytes nbits w)[k]? := by
  have hl : (tableBytes nbits w).length = Config.maxLength := by simp [tableBytes]
  exact Memory.fetch_place h hp _ (by rwa [hl])

/-- A run of `k + 1` steps is one step and a run of `k`. -/
theorem core_run_succ (k : Nat) (s : State) :
    Sys2Proof.core.run (k + 1) s =
      match step s with
      | .next t => Sys2Proof.core.run k t
      | .fault f => .fault f
      | .refused r => .refused r := by
  have h : Sys2Proof.core.step s = step s := rfl
  generalize step s = o at h
  cases o <;> simp only [Host.Core.run, h]

theorem core_run_zero (s : State) : Sys2Proof.core.run 0 s = .next s := rfl

end Sys2Proof.Machine
end

