-- ==== Sys2Proof/Tests/Slice0.lean ====
section
/-!
SUPPORT. Tests of the model, and for every statement with hypotheses a state and operands that meet them.
The expected results are those of spec/95_test_vectors.md, or are worked out by hand from the rule a test names.
-/

namespace Sys2Proof.Tests

open Sys2Proof Sys2Proof.Machine

/-! ### Helpers -/

/-- The state at the start of a run under abort. -/
def run (bs : List Byte) : State := State.start bs .abort

/-- The same, with the A storage set. -/
def runA (a : Word) (bs : List Byte) : State := { run bs with regs := { RegFile.reset with a := a } }

/-- The instruction a list of bytes decodes to. -/
def instrOf (bs : List Byte) : Option Instr := (decodeBytes bs).toOption.map Prod.snd

/-- The error a list of bytes decodes to. -/
def errorOf (bs : List Byte) : Option ErrKind :=
  match decodeBytes bs with
  | .ok _ => none
  | .error k => some k

/-- The next state of an outcome has the property `p`. -/
def Nexts (o : Result) (p : State → Bool) : Bool :=
  match o with
  | .next t => p t
  | .fault _ | .refused _ => false

theorem Nexts.spec {o : Result} {p : State → Bool} (h : Nexts o p = true) : ∃ t, o = .next t ∧ p t = true := by
  cases o with
  | next t => exact ⟨t, rfl, h⟩
  | fault f => simp [Nexts] at h
  | refused r => simp [Nexts] at h

theorem Nexts.exists {o : Result} {p : State → Bool} (h : Nexts o p = true) : ∃ t, o = .next t :=
  (Nexts.spec h).imp fun _ h => h.1

/-- One step commits the line `line`, moves the cursor to `pos` and leaves the registers `regs`. -/
def Commits (s : State) (line : String) (pos : Nat) (regs : RegFile) : Bool :=
  Nexts (step s) fun t => t.out == [line] && t.pos == pos && t.regs == regs && t.status == .run

/-- One step ends the run with an error, and nothing else has changed. -/
def Fails (s : State) (k : ErrKind) : Bool :=
  Nexts (step s) fun t => t == { s with status := .fail, err := some (k, s.pos) }

/-! ### Well-formedness: the one check, for every instruction with an r/m operand -/

theorem test_wf_refuses_movRmReg : (Instr.movRmReg true true 0 (.mem 0b110)).wf = false := by decide
theorem test_wf_refuses_movSegToRm : (Instr.movSegToRm .es (.mem 0b110)).wf = false := by decide
theorem test_wf_refuses_movRmToSeg : (Instr.movRmToSeg .es (.mem 0b110)).wf = false := by decide
theorem test_wf_refuses_movImmRm : (Instr.movImmRm (.mem 0b110) (.byte 0)).wf = false := by decide
theorem test_wf_refuses_addImm : (Instr.addImm (.mem 0b110) (.byte 0)).wf = false := by decide
theorem test_wf_refuses_addImmSx : (Instr.addImmSx (.mem 0b110) 0).wf = false := by decide
theorem test_wf_refuses_subImm : (Instr.subImm (.mem 0b110) (.byte 0)).wf = false := by decide
theorem test_wf_refuses_subImmSx : (Instr.subImmSx (.mem 0b110) 0).wf = false := by decide
theorem test_wf_admits_bp_with_displacement : (Instr.movRmReg true true 0 (.disp8 0b110 0)).wf = true := by decide

/-! ### Decoding: every constructor, from a word written out bit by bit -/

/-- 95 §1 S1: `100010 d=1 w=1`, `mod=11 reg=001 rm=011`. -/
theorem test_decode_movRmReg :
    instrOf [0b10001011, 0b11001011] = some (.movRmReg true true 0b001 (.reg 0b011)) := by decide
/-- 95 §2.2: `8C 0E 10 00`, `mod=00 0 sr=01 rm=110` and a direct address. -/
theorem test_decode_movSegToRm :
    instrOf [0b10001100, 0b00001110, 0x10, 0x00] = some (.movSegToRm .cs (.direct 16)) := by decide
/-- 95 §2.2: `8E 5E 02`, `mod=01 0 sr=11 rm=110` and one displacement byte. -/
theorem test_decode_movRmToSeg :
    instrOf [0b10001110, 0b01011110, 0x02] = some (.movRmToSeg .ds (.disp8 0b110 0x02)) := by decide
/-- 95 §2.3: `BF 34 12`, `1011 w=1 reg=111`, low byte first. -/
theorem test_decode_movImmReg : instrOf [0b10111111, 0x34, 0x12] = some (.movImmReg 0b111 (.word 0x1234)) := by decide
/-- 95 §2.4: `C7 85 85 03 5B 01`, `mod=10 000 rm=101`, two displacement and two data bytes. -/
theorem test_decode_movImmRm :
    instrOf [0b11000111, 0b10000101, 0x85, 0x03, 0x5B, 0x01] = some (.movImmRm (.disp16 0b101 901) (.word 347)) := by decide
/-- 95 §1 S4: `1010000 w=1`. -/
theorem test_decode_movMemToAcc : instrOf [0b10100001, 0xE8, 0x03] = some (.movMemToAcc true 1000) := by decide
/-- 95 §2.5: `A2 FA 09`, `1010001 w=0`. -/
theorem test_decode_movAccToMem : instrOf [0b10100010, 0xFA, 0x09] = some (.movAccToMem false 2554) := by decide
/-- 95 §2.6: `81 82 E8 03 1D 00`, `mod=10 000 rm=010`. -/
theorem test_decode_addImm :
    instrOf [0b10000001, 0b10000010, 0xE8, 0x03, 0x1D, 0x00] = some (.addImm (.disp16 0b010 1000) (.word 29)) := by decide
/-- 95 §2.6: `83 06 E8 03 01`, `mod=00 000 rm=110`: a direct address and one data byte although W=1. -/
theorem test_decode_addImmSx :
    instrOf [0b10000011, 0b00000110, 0xE8, 0x03, 0x01] = some (.addImmSx (.direct 1000) 0x01) := by decide
/-- 95 §2.6: `80 E9 0A`, `mod=11 101 rm=001`. -/
theorem test_decode_subImm : instrOf [0b10000000, 0b11101001, 0x0A] = some (.subImm (.reg 0b001) (.byte 0x0A)) := by decide
/-- 95 §2.6: `83 6F 08 FF`, `mod=01 101 rm=111`. -/
theorem test_decode_subImmSx :
    instrOf [0b10000011, 0b01101111, 0x08, 0xFF] = some (.subImmSx (.disp8 0b111 0x08) 0xFF) := by decide
/-- R171-R186: the 16 condition codes. -/
theorem test_decode_jo : instrOf [0b01110000, 0x00] = some (.jo 0x00) := by decide
theorem test_decode_jno : instrOf [0b01110001, 0xFE] = some (.jno 0xFE) := by decide
theorem test_decode_jb : instrOf [0b01110010, 0x04] = some (.jb 0x04) := by decide
theorem test_decode_jnb : instrOf [0b01110011, 0xFC] = some (.jnb 0xFC) := by decide
theorem test_decode_je : instrOf [0b01110100, 0x05] = some (.je 0x05) := by decide
theorem test_decode_jne : instrOf [0b01110101, 0xFE] = some (.jne 0xFE) := by decide
theorem test_decode_jbe : instrOf [0b01110110, 0x00] = some (.jbe 0x00) := by decide
theorem test_decode_ja : instrOf [0b01110111, 0xF0] = some (.ja 0xF0) := by decide
theorem test_decode_js : instrOf [0b01111000, 0x10] = some (.js 0x10) := by decide
theorem test_decode_jns : instrOf [0b01111001, 0xFF] = some (.jns 0xFF) := by decide
theorem test_decode_jp : instrOf [0b01111010, 0x02] = some (.jp 0x02) := by decide
theorem test_decode_jnp : instrOf [0b01111011, 0xFD] = some (.jnp 0xFD) := by decide
theorem test_decode_jl : instrOf [0b01111100, 0x80] = some (.jl 0x80) := by decide
theorem test_decode_jnl : instrOf [0b01111101, 0x7E] = some (.jnl 0x7E) := by decide
theorem test_decode_jle : instrOf [0b01111110, 0x08] = some (.jle 0x08) := by decide
theorem test_decode_jg : instrOf [0b01111111, 0x7F] = some (.jg 0x7F) := by decide

/-- 95 §2.6 `80 F8`: the selector is checked before the missing data byte (R89). -/
theorem test_decode_literal_before_data : errorOf [0x80, 0xF8] = some .unknownOpcode := by decide
/-- 95 §2.2 `8E E0`: ModRM bit 5 is 1. -/
theorem test_decode_segment_bit5 : errorOf [0x8E, 0xE0] = some .unknownOpcode := by decide
/-- 95 §2.4 `C6 48 00 07`: ModRM bits 5:3 are 001. -/
theorem test_decode_movImmRm_literal : errorOf [0xC6, 0x48, 0x00, 0x07] = some .unknownOpcode := by decide
/-- R89 on `C6 48` cut after the ModRM byte: the literal comes before RM and its displacement. -/
theorem test_decode_literal_before_displacement : errorOf [0xC6, 0x48] = some .unknownOpcode := by decide
/-- 95 §2.1 `8B 80 87`: the second displacement byte is missing. -/
theorem test_decode_cut_displacement : errorOf [0x8B, 0x80, 0x87] = some .truncatedStream := by decide

/-- spec/INDEX.md: the first byte stands in the high half, so `0x8C00` is the bytes `8C 00`. -/
theorem test_tableWord_two_bytes : decodeTableWord 16 0x8C00 = some (.movSegToRm .es (.mem 0b000)) := by decide
theorem test_tableWord_one_byte : decodeTableWord 8 0xA0 = some (.movMemToAcc false 0) := by decide
theorem test_tableWord_unknown : decodeTableWord 8 0x90 = none := by decide

/-! ### One step -/

/-- 95 §1 S1; both registers 0, so A is set to show that no mov of registers copies (R130). -/
theorem test_step_movRmReg : Commits (runA 0x1234 [0x8B, 0xD8]) "mov bx, ax" 2 ⟨0x1234, 0, 0, 0, 0, 0, 0, 0⟩ = true := by decide
/-- 95 §2.1: a negative 16-bit displacement as a memory destination. -/
theorem test_step_movRmReg_memory : Commits (run [0x89, 0x8C, 0xD4, 0xFE]) "mov [si - 300], cx" 4 .reset = true := by decide
theorem test_step_movSegToRm : Commits (runA 7 [0x8C, 0xC8]) "mov ax, cs" 2 ⟨7, 0, 0, 0, 0, 0, 0, 0⟩ = true := by decide
theorem test_step_movRmToSeg : Commits (run [0x8E, 0x5E, 0x02]) "mov ds, [bp + 2]" 3 .reset = true := by decide
/-- 95 §2.3: a byte into a hi view. -/
theorem test_step_movImmReg_hi : Commits (runA 0x1278 [0xB4, 0xFF]) "mov ah, -1" 2 ⟨0xFF78, 0, 0, 0, 0, 0, 0, 0⟩ = true := by decide
theorem test_step_movImmReg_word : Commits (run [0xBC, 0x00, 0x80]) "mov sp, -32768" 3 ⟨0, 0, 0, 0, 0x8000, 0, 0, 0⟩ = true := by decide
theorem test_step_movImmRm_memory : Commits (run [0xC6, 0x46, 0x04, 0x07]) "mov [bp + 4], byte 7" 4 .reset = true := by decide
theorem test_step_movImmRm_register : Commits (run [0xC6, 0xC3, 0x07]) "mov bl, 7" 3 ⟨0, 7, 0, 0, 0, 0, 0, 0⟩ = true := by decide
theorem test_step_movMemToAcc : Commits (run [0xA1, 0x00, 0x80]) "mov ax, [32768]" 3 .reset = true := by decide
theorem test_step_movAccToMem : Commits (run [0xA2, 0xFA, 0x09]) "mov [2554], al" 3 .reset = true := by decide
/-- 95 §2.6: AL wraps, AH stays. -/
theorem test_step_addImm_byte : Commits (runA 0x12FF [0x80, 0xC0, 0x01]) "add al, 1" 3 ⟨0x1200, 0, 0, 0, 0, 0, 0, 0⟩ = true := by decide
theorem test_step_addImm_word : Commits (runA 1 [0x81, 0xC0, 0xFF, 0x7F]) "add ax, 32767" 4 ⟨0x8000, 0, 0, 0, 0, 0, 0, 0⟩ = true := by decide
/-- 95 §2.6: the sum wraps to 0. -/
theorem test_step_addImmSx : Commits (runA 0xFFFF [0x83, 0xC0, 0x01]) "add ax, 1" 3 .reset = true := by decide
theorem test_step_addImmSx_memory : Commits (run [0x83, 0x06, 0xE8, 0x03, 0x01]) "add [1000], word 1" 5 .reset = true := by decide
/-- 95 §2.6: no borrow into CH. -/
theorem test_step_subImm_byte : Commits (run [0x80, 0xE9, 0x0A]) "sub cl, 10" 3 ⟨0, 0, 0xF6, 0, 0, 0, 0, 0⟩ = true := by decide
theorem test_step_subImm_word : Commits (runA 0x8000 [0x81, 0xE8, 0x01, 0x00]) "sub ax, 1" 4 ⟨0x7FFF, 0, 0, 0, 0, 0, 0, 0⟩ = true := by decide
theorem test_step_subImmSx : Commits (run [0x83, 0xEB, 0x05]) "sub bx, 5" 3 ⟨0, 0xFFFB, 0, 0, 0, 0, 0, 0⟩ = true := by decide
theorem test_step_subImmSx_memory : Commits (run [0x83, 0x6F, 0x08, 0xFF]) "sub [bx + 8], word -1" 4 .reset = true := by decide
/-- 95 §2.7: both signs, and the edges of the displacement. -/
theorem test_step_jne : Commits (run [0x75, 0xFE]) "jne $+0" 2 .reset = true := by decide
theorem test_step_jnb : Commits (run [0x73, 0xFC]) "jnb $-2" 2 .reset = true := by decide
theorem test_step_jl : Commits (run [0x7C, 0x80]) "jl $-126" 2 .reset = true := by decide
theorem test_step_jg : Commits (run [0x7F, 0x7F]) "jg $+129" 2 .reset = true := by decide

/-- 95 §2.8: an unknown opcode and a cut instruction. -/
theorem test_step_unknown : Fails (run [0x90]) .unknownOpcode = true := by decide
theorem test_step_truncated : Fails (run [0x8B, 0x46]) .truncatedStream = true := by decide
/-- 95 §2.8 `90 8B` under skip1: one byte is skipped; then the cut instruction ends the run at offset 1. -/
theorem test_step_skip :
    Nexts (step (State.start [0x90, 0x8B] .skip1)) (fun t => t == { State.start [0x90, 0x8B] .skip1 with pos := 1 }) = true := by
  decide
theorem test_step_skip_not_truncated : Fails { State.start [0x90, 0x8B] .skip1 with pos := 1 } .truncatedStream = true := by decide
/-- 95 §2.8: the empty stream is DONE after one step, and the dump is all zeros. -/
theorem test_step_empty : Nexts (step State.reset) (fun t => t == { State.reset with status := .done }) = true := by decide

/-- 95 §3 P1: three lines of the dump with A = 0x0180. -/
theorem test_dump : (dump { runA 0x0180 [] with status := .done }).map (List.take 3) =
    some ["ax: 0000000110000000", "al (lo): 10000000", "ah (hi): 00000001"] := by decide

/-- 95 §2.1 and §2.6: the base expressions of the rows 011 and 010 of R90. -/
theorem test_text_base_rows :
    (instrOf [0x8B, 0x1B]).map Instr.line = some "mov bx, [bp + di]" ∧
    (instrOf [0x81, 0x82, 0xE8, 0x03, 0x1D, 0x00]).map Instr.line = some "add [bp + si + 1000], word 29" := by decide

/-- 95 §2.1, §2.2 and §2.3: register and segment names of codes that the other tests leave out. -/
theorem test_text_register_names :
    (instrOf [0x8B, 0x96, 0x00, 0x00]).map Instr.line = some "mov dx, [bp]" ∧
    (instrOf [0x8E, 0xD8]).map Instr.line = some "mov ds, ax" ∧ (instrOf [0x8C, 0xC3]).map Instr.line = some "mov bx, es" := by
  decide

/-- R107: `0` is written `0`, and a negative number is `-` and its magnitude. -/
theorem test_text_numbers : signedDecimal 0 = "0" ∧ signedDecimal (-1) = "-1" ∧ signedDecimal (-32768) = "-32768" := by decide

/-- R39: the event names the bytes of the instruction alone. -/
theorem test_event : (commitEvent (run [0xB0, 0x05, 0x90])).map (fun e => (e.offset, e.bytes, e.line)) =
    some (0, [0xB0, 0x05], "mov al, 5") := by decide

/-- The word laid out at the cursor is what the very next step runs, whatever the stream held. -/
theorem test_withFetchWord : Commits ((run [0x90]).withFetchWord 16 0x8301) "add [bx + di], word 0" 3 .reset = true := by decide

/-- R239: one whole run. -/
theorem test_run_two_instructions :
    Nexts (Sys2Proof.core.run 3 (run [0xB8, 0x34, 0x12, 0x75, 0xFE])) (fun t =>
      t.out == ["mov ax, 4660", "jne $+0"] && t.status == .done && t.regs.a == 0x1234) = true := by decide

/-! ### Witnesses: what the statements assume can be met -/

theorem run_inv (bs : List Byte) : (run bs).Inv :=
  ⟨Memory.wf_load bs, ⟨Nat.zero_le _, by simp [run]⟩, by simp [run, State.ErrorRecorded], by simp [run, State.LinesCounted]⟩

theorem start_inv (bs : List Byte) (p : Policy) : (State.start bs p).Inv :=
  ⟨Memory.wf_load bs, ⟨Nat.zero_le _, by simp⟩, by simp [State.ErrorRecorded], by simp [State.LinesCounted]⟩

/-- A commit, an error under abort, a skip and the end of the stream. -/
theorem witness_StepKeepsTheInvariant :
    ((run [0x8B, 0xCB]).Inv ∧ ∃ t, step (run [0x8B, 0xCB]) = .next t ∧ t.status = .run) ∧
    ((run [0x90]).Inv ∧ ∃ t, step (run [0x90]) = .next t ∧ t.status = .fail) ∧
    ((State.start [0x90] .skip1).Inv ∧ ∃ t, step (State.start [0x90] .skip1) = .next t ∧ t.pos = 1) ∧
    ((run []).Inv ∧ ∃ t, step (run []) = .next t ∧ t.status = .done) := by
  refine ⟨⟨run_inv _, ?_⟩, ⟨run_inv _, ?_⟩, ⟨start_inv _ _, ?_⟩, ⟨run_inv _, ?_⟩⟩
  · exact (Nexts.spec (p := fun t => t.status == .run) (by decide)).imp fun _ h => ⟨h.1, by simpa using h.2⟩
  · exact (Nexts.spec (p := fun t => t.status == .fail) (by decide)).imp fun _ h => ⟨h.1, by simpa using h.2⟩
  · exact (Nexts.spec (p := fun t => t.pos == 1) (by decide)).imp fun _ h => ⟨h.1, by simpa using h.2⟩
  · exact (Nexts.spec (p := fun t => t.status == .done) (by decide)).imp fun _ h => ⟨h.1, by simpa using h.2⟩

theorem witness_StepNeverChangesStreamOrPolicy : ∃ t, step (State.start [0x90] .skip1) = .next t :=
  Nexts.exists (p := fun _ => true) (by decide)

/-- Both outcomes: the cursor moves on, and the run ends. -/
theorem witness_StepFromRunProgresses :
    ((run [0x75, 0xFE]).status = .run ∧ ∃ t, step (run [0x75, 0xFE]) = .next t ∧ t.pos = 2) ∧
    ((run [0x75]).status = .run ∧ ∃ t, step (run [0x75]) = .next t ∧ t.status = .fail) := by
  refine ⟨⟨rfl, ?_⟩, rfl, ?_⟩
  · exact (Nexts.spec (p := fun t => t.pos == 2) (by decide)).imp fun _ h => ⟨h.1, by simpa using h.2⟩
  · exact (Nexts.spec (p := fun t => t.status == .fail) (by decide)).imp fun _ h => ⟨h.1, by simpa using h.2⟩

theorem witness_EveryRunEndsWithinTheStreamLength : (run [0x75, 0xFE]).Inv ∧ (run [0x75, 0xFE]).status = .run :=
  ⟨run_inv _, rfl⟩

theorem witness_FinalStatesHaveNoStep :
    ({ run [] with status := .done } : State).status ≠ .run ∧ ({ run [] with status := .fail } : State).status ≠ .run := by decide

/-- The empty stream, and the end of a stream that is not empty. -/
theorem witness_EndOfStreamIsDone :
    ((run []).stream.wf = true ∧ (run []).status = .run ∧ (run []).pos = (run []).stream.size) ∧
    (({ run [0x75, 0xFE] with pos := 2 } : State).stream.wf = true ∧ ({ run [0x75, 0xFE] with pos := 2 } : State).status = .run ∧
      ({ run [0x75, 0xFE] with pos := 2 } : State).pos = ({ run [0x75, 0xFE] with pos := 2 } : State).stream.size) := by decide

theorem witness_StepRunsTheDecodedInstruction :
    (run [0x83, 0xC6, 0x02]).status = .run ∧
    ∃ rec, decode (run [0x83, 0xC6, 0x02]).fetchAtPos = .ok (rec, .addImmSx (.reg 0b110) 0x02) :=
  ⟨rfl, _, rfl⟩

theorem witness_StepRunsTheEncodedInstruction :
    (run [0x83, 0xC6, 0x02]).status = .run ∧ (Instr.addImmSx (.reg 0b110) 0x02).wf = true ∧
    Holds (run [0x83, 0xC6, 0x02]).fetchAtPos 0 (encode (.addImmSx (.reg 0b110) 0x02)) :=
  ⟨rfl, rfl, by unfold Holds; decide⟩

theorem witness_CommitAppendsTheLineAndAdvances :
    (run [0x75, 0xFE]).status = .run ∧ ∃ rec, decode (run [0x75, 0xFE]).fetchAtPos = .ok (rec, .jne 0xFE) :=
  ⟨rfl, _, rfl⟩

/-- Both kinds a stream can raise. -/
theorem witness_AbortRecordsTheError :
    ((run [0x90]).status = .run ∧ (run [0x90]).policy = .abort ∧ (run [0x90]).fetch 0 = some 0x90 ∧
      decode (run [0x90]).fetchAtPos = .error .unknownOpcode) ∧
    ((run [0x8B]).status = .run ∧ (run [0x8B]).policy = .abort ∧ (run [0x8B]).fetch 0 = some 0x8B ∧
      decode (run [0x8B]).fetchAtPos = .error .truncatedStream) :=
  ⟨⟨rfl, rfl, rfl, rfl⟩, rfl, rfl, rfl, rfl⟩

theorem witness_SkipPassesOverUnknownOpcodesOnly :
    ((State.start [0x90] .skip1).fetch 0 = some 0x90 ∧ decode (State.start [0x90] .skip1).fetchAtPos = .error .unknownOpcode) ∧
    ((State.start [0x8B] .skip1).fetch 0 = some 0x8B ∧ decode (State.start [0x8B] .skip1).fetchAtPos = .error .truncatedStream) :=
  ⟨⟨rfl, rfl⟩, rfl, rfl⟩

theorem witness_FailedStepChangesOnlyStatusAndError : ∃ t, step (run [0x90]) = .next t ∧ t.status = .fail :=
  (Nexts.spec (p := fun t => t.status == .fail) (by decide)).imp fun _ h => ⟨h.1, by simpa using h.2⟩

/-- The first and the last unknown byte, under each policy. -/
theorem witness_UnlistedOpcodeBytesAreUnknown :
    unknownByte 0x00 = true ∧ unknownByte 0xFF = true ∧ unknownByte 0x6F = true ∧ unknownByte 0x70 = false ∧
    (run [0x00]).fetch 0 = some 0x00 ∧ (State.start [0xFF] .skip1).fetch 0 = some 0xFF := by decide

/-- Both ways: the opcode byte, and the ModRM byte. -/
theorem witness_UnknownOpcodeExactly :
    (errorOf [0x90] = some .unknownOpcode ∧ unknownByte 0x90 = true) ∧
    (errorOf [0x80, 0xF8] = some .unknownOpcode ∧ literalMismatch 0x80 0xF8 = true) := by decide

/-- The longest instruction cut before its last byte and after its first one; and a stream with no byte left. -/
theorem witness_CutInstructionIsTruncated :
    (∀ n ∈ [1, 5], (run ((encode (.movImmRm (.direct 1000) (.word 300))).take n)).status = .run ∧
      (Instr.movImmRm (.direct 1000) (.word 300)).wf = true ∧ 0 < n ∧ n < (Instr.movImmRm (.direct 1000) (.word 300)).len ∧
      (∀ j, j < ((encode (.movImmRm (.direct 1000) (.word 300))).take n).length →
        (run ((encode (.movImmRm (.direct 1000) (.word 300))).take n)).fetchAtPos (0 + j) =
          ((encode (.movImmRm (.direct 1000) (.word 300))).take n)[j]?) ∧
      (run ((encode (.movImmRm (.direct 1000) (.word 300))).take n)).fetch (0 + n) = none) ∧
    ((run []).status = .run ∧ (run []).fetch 0 = none) := by decide

theorem witness_InvalidAddressingStateIsUnreachable :
    ({ q := 13, scheme := none, mnemonic := "", slots := {} } : Walk).slots.mod = none := rfl

theorem witness_DecodeOfEncode :
    (Instr.addImm (.disp16 0b010 1000) (.word 29)).wf = true ∧
    Holds (run [0x81, 0x82, 0xE8, 0x03, 0x1D, 0x00]).fetchAtPos 0 (encode (.addImm (.disp16 0b010 1000) (.word 29))) :=
  ⟨rfl, by unfold Holds; decide⟩

theorem witness_EncodeOfDecode : ∃ rec, decode (run [0x81, 0x82, 0xE8, 0x03, 0x1D, 0x00]).fetchAtPos =
    .ok (rec, .addImm (.disp16 0b010 1000) (.word 29)) :=
  ⟨_, rfl⟩

/-- Two states that agree on the two bytes alone; two that agree on six bytes and not on the seventh, with an unknown opcode; two
that end alike after one byte and differ in a register. -/
theorem witness_DecodingReadsOnlyItsBytes :
    (∃ e, commitEvent (run [0x75, 0xFE]) = some e ∧ (runA 5 [0x75, 0xFE, 0x90]).status = .run ∧
      ∀ k, k < e.record.len → (runA 5 [0x75, 0xFE, 0x90]).fetchAtPos k = (run [0x75, 0xFE]).fetchAtPos k) ∧
    (decode (run [0x90, 0, 0, 0, 0, 0, 1]).fetchAtPos = .error .unknownOpcode ∧
      ∀ n, n < 6 → (run [0x90, 0, 0, 0, 0, 0, 2]).fetchAtPos n = (run [0x90, 0, 0, 0, 0, 0, 1]).fetchAtPos n) ∧
    (decode (run [0x8B]).fetchAtPos = .error .truncatedStream ∧
      ∀ n, n < 6 → (runA 5 [0x8B]).fetchAtPos n = (run [0x8B]).fetchAtPos n) :=
  ⟨⟨_, rfl, rfl, by decide⟩, ⟨rfl, by decide⟩, rfl, by decide⟩

/-- The MOD and RM of a decoded list of bytes. -/
def modRmOf (bs : List Byte) : Option (Option (BitVec 2) × Option (BitVec 3)) :=
  (decodeBytes bs).toOption.map fun p => (p.1.slots.mod, p.1.slots.rm)

/-- 95 §1 S7: one row of R80 for each clause, with RM=110 where the direct address lies next to the others. -/
theorem witness_EaExtensionByModAndRm :
    modRmOf [0x8B, 0x06, 0x04, 0x00] = some (some 0b00, some 0b110) ∧ modRmOf [0x8B, 0x07] = some (some 0b00, some 0b111) ∧
    modRmOf [0x8B, 0x46, 0x04] = some (some 0b01, some 0b110) ∧
    modRmOf [0x8B, 0x86, 0x04, 0x00] = some (some 0b10, some 0b110) ∧ modRmOf [0x8B, 0xC6] = some (some 0b11, some 0b110) := by decide

/-- The scheme, W and S of a decoded list of bytes, and whether `DataHigh` was read. -/
def dataOf (bs : List Byte) : Option (Scheme × Option Bool × Option Bool × Bool) :=
  (decodeBytes bs).toOption.map fun p => (p.1.scheme, p.1.slots.w, p.1.slots.s, p.1.slots.dataHi.isSome)

/-- The four schemes, with and without `DataHigh`. -/
theorem witness_DataHighByWAndS :
    (dataOf [0xB1, 0x07] = some (.movImmReg, some false, none, false) ∧
      dataOf [0xB9, 0x07, 0x00] = some (.movImmReg, some true, none, true)) ∧
    (dataOf [0xC7, 0xC0, 0xFF, 0xFF] = some (.movImmRm, some true, none, true) ∧
      dataOf [0x80, 0xC4, 0x05] = some (.addImm, some false, some false, false)) ∧
    (dataOf [0x81, 0xC1, 0xE8, 0x03] = some (.addImm, some true, some false, true) ∧
      dataOf [0x83, 0xEB, 0x05] = some (.subImm, some true, some true, false)) := by
  refine ⟨?_, ?_, ?_⟩ <;> decide

/-- A shortest and a longest instruction. -/
theorem witness_LengthsOfInstructions :
    (decodeBytes [0x75, 0xFE]).toOption.map (fun p => p.1.len) = some 2 ∧
    (decodeBytes [0xC7, 0x06, 0xE8, 0x03, 0x2C, 0x01]).toOption.map (fun p => p.1.len) = some 6 := by decide

theorem witness_SchemeTableIsWellFormed : schemeTable.length = 23 := rfl

/-- A view of each class, and a storage beside its own. -/
theorem witness_ViewClauses :
    View.ax.cls = .full ∧ View.al.cls = .lo ∧ View.ah.cls = .hi ∧ Storage.b ≠ View.ax.storage := by decide

theorem witness_ViewsAliasTheirStorage :
    View.ax.cls = .full ∧ View.al.cls = .lo ∧ View.ah.cls = .hi ∧ View.al.storage = View.ax.storage ∧
    View.ah.storage = View.ax.storage ∧ View.ax.storage ≠ View.bl.storage := by decide

/-- An instruction that changes a register and one that changes none. -/
theorem witness_RegistersChangeOnlyByImmediates :
    (∃ t, exec (.movImmReg 0b000 (.byte 5)) (run []) = .next t ∧ t.regs ≠ (run []).regs) ∧
    (∃ t, exec (.jne 0xFE) (run []) = .next t ∧ t.regs = (run []).regs) :=
  ⟨⟨_, rfl, by decide⟩, _, rfl, rfl⟩

/-- The memory clauses of the immediate instructions, for every shape of memory operand. -/
theorem witness_memory_destination :
    ∀ ea ∈ [Ea.direct 0xFFFF, .mem 0b111, .disp8 0b110 0x80, .disp16 0b000 0x8000], ∀ rm, ea ≠ .reg rm := by decide

/-- The edges of both signs, and 0. -/
theorem witness_MemoryOperandText :
    (0x0000#16).toInt = 0 ∧ 0 < (0x0001#16).toInt ∧ 0 < (0x7FFF#16).toInt ∧ (0xFFFF#16).toInt < 0 ∧ (0x8000#16).toInt < 0 := by decide

/-- The signs of the signed number, at 0 and beside it. -/
theorem witness_DecimalTextReadsBack : (1 : Nat) ≠ 0 ∧ (0 : Int) ≤ 0 ∧ (-1 : Int) < 0 := by decide

/-- A step with an event, where the bytes decode, and one without. -/
theorem witness_EventsReportCommits :
    (∃ t e i, step (run [0x75, 0xFE]) = .next t ∧ commitEvent (run [0x75, 0xFE]) = some e ∧
      decode (run [0x75, 0xFE]).fetchAtPos = .ok (e.record, i)) ∧
    (∃ t, step (run [0x90]) = .next t ∧ commitEvent (run [0x90]) = none) :=
  ⟨(Nexts.exists (p := fun _ => true) (by decide)).imp fun _ h => ⟨_, _, h, rfl, rfl⟩,
    (Nexts.exists (p := fun _ => true) (by decide)).imp fun _ h => ⟨h, rfl⟩⟩

/-- A running state and both final ones; the first and the last view of the dump. -/
theorem witness_DumpShowsTheSixteenViews :
    (run []).status = .run ∧ ({ run [] with status := .done } : State).status ≠ .run ∧
    ({ run [] with status := .fail } : State).status ≠ .run ∧ View.dumpOrder[0]? = some .ax ∧ View.dumpOrder[15]? = some .di := by
  decide

theorem witness_RegistersNeverReachTheText : ∃ t, step (run [0x83, 0xC0, 0x01]) = .next t :=
  Nexts.exists (p := fun _ => true) (by decide)

/-- Two instructions, and no instruction at all. -/
theorem witness_StreamOfInstructionsRunsToDone :
    ((run [0xB0, 0x05, 0x75, 0xFE]).stream.wf = true ∧ (run [0xB0, 0x05, 0x75, 0xFE]).status = .run ∧
      (∀ i ∈ [Instr.movImmReg 0b000 (.byte 5), .jne 0xFE], i.wf = true) ∧
      Holds (run [0xB0, 0x05, 0x75, 0xFE]).fetchAtPos 0 (encodeAll [.movImmReg 0b000 (.byte 5), .jne 0xFE]) ∧
      (run [0xB0, 0x05, 0x75, 0xFE]).pos + (encodeAll [.movImmReg 0b000 (.byte 5), .jne 0xFE]).length =
        (run [0xB0, 0x05, 0x75, 0xFE]).stream.size) ∧
    ((run []).stream.wf = true ∧ (run []).status = .run ∧ Holds (run []).fetchAtPos 0 (encodeAll []) ∧
      (run []).pos + (encodeAll []).length = (run []).stream.size) := by
  refine ⟨⟨rfl, rfl, by decide, ?_, rfl⟩, rfl, rfl, ?_, rfl⟩
  · unfold Holds; decide
  · unfold Holds; decide

theorem witness_DoneRunIsADisassembly :
    ∃ t, Sys2Proof.core.run 2 (State.start [0x75, 0xFE] .abort) = .next t ∧ t.status = .done :=
  (Nexts.spec (o := Sys2Proof.core.run 2 (State.start [0x75, 0xFE] .abort)) (p := fun t => t.status == .done) (by decide)).imp
    fun _ h => ⟨h.1, by simpa using h.2⟩

theorem witness_SkippedBytesLeaveNoTrace :
    (State.start [0x90] .skip1).policy = .skip1 ∧ commitEvent (State.start [0x90] .skip1) = none ∧
    ∃ t, step (State.start [0x90] .skip1) = .next t ∧ t.status = .run :=
  ⟨rfl, rfl, (Nexts.spec (p := fun t => t.status == .run) (by decide)).imp fun _ h => ⟨h.1, by simpa using h.2⟩⟩

end Sys2Proof.Tests
end

section
/-! What decodes is an encoding: the walk over each entry of the table, inverted field by field (R76-R99, R116). -/

namespace Sys2Proof

/-! ### Bytes held by the stream -/

@[simp] theorem holds_nil (fetch : Nat → Option Byte) (k : Nat) : Holds fetch k [] := by
  intro j hj
  simp at hj

theorem holds_cons_iff {fetch : Nat → Option Byte} {k : Nat} {b : Byte} {bs : List Byte} :
    Holds fetch k (b :: bs) ↔ fetch k = some b ∧ Holds fetch (k + 1) bs := by
  refine ⟨Holds.cons, fun ⟨h0, h⟩ j hj => ?_⟩
  cases j with
  | zero => simpa using h0
  | succ j => simpa [Nat.add_assoc, Nat.add_comm 1 j] using h j (by simpa using hj)

theorem holds_append_iff {fetch : Nat → Option Byte} {k : Nat} {bs cs : List Byte} :
    Holds fetch k (bs ++ cs) ↔ Holds fetch k bs ∧ Holds fetch (k + bs.length) cs := by
  induction bs generalizing k with
  | nil => simp
  | cons b bs ih => simp [holds_cons_iff, ih, and_assoc, Nat.add_assoc, Nat.add_comm 1]

/-- Every byte of a held list is there. -/
theorem Holds.fetch_isSome {fetch : Nat → Option Byte} {bs : List Byte} (h : Holds fetch 0 bs) {j : Nat}
    (hj : j < bs.length) : (fetch j).isSome = true := by
  have := h j hj
  rw [Nat.zero_add] at this
  simp [this, hj]

/-! ### Walks that succeed -/

theorem takeByte_ok {fetch : Nat → Option Byte} {k q : Nat} {b : Byte} (h : takeByte fetch (8 * k) = .ok (b, q)) :
    fetch k = some b ∧ q = 8 * (k + 1) := by
  cases hk : fetch k with
  | none => simp [takeByte_none hk] at h
  | some c =>
    rw [takeByte_some hk] at h
    cases h
    exact ⟨rfl, rfl⟩

theorem walk_cons_ok {fetch : Nat → Option Byte} {g : Bool} {f : Field} {fs : List Field} {st st' : Walk} :
    walk fetch g (f :: fs) st = .ok st' ↔ ∃ st1, walkField fetch g f st = .ok st1 ∧ walk fetch g fs st1 = .ok st' := by
  simp only [walk]
  cases walkField fetch g f st with
  | error e => simp
  | ok st1 => simp

theorem walk_append_ok {fetch : Nat → Option Byte} {g : Bool} {fs gs : List Field} {st st' : Walk} :
    walk fetch g (fs ++ gs) st = .ok st' ↔ ∃ st1, walk fetch g fs st = .ok st1 ∧ walk fetch g gs st1 = .ok st' := by
  rw [walk_append]
  cases walk fetch g fs st with
  | error e => simp
  | ok st1 => simp

/-- A field of one whole byte, at a byte boundary. -/
theorem walkSlot_byte_ok {fetch : Nat → Option Byte} {f : Field} {k : Nat} {st st' : Walk} (hw : f.width = 8)
    (hq : st.q = 8 * k) (h : walkSlot fetch f st = .ok st') :
    ∃ b, fetch k = some b ∧ st' = { st with q := 8 * (k + 1), slots := st.slots.set f.kind b.toNat } := by
  have hd : st.q / 8 = k := by omega
  have hm : st.q % 8 = 0 := by omega
  cases hk : fetch k with
  | none => simp [walkSlot, takeBits, hd, hk] at h
  | some b =>
    simp [walkSlot, takeBits, hd, hm, hk, hw] at h
    exact ⟨b, rfl, by rw [← h, hq, Nat.mul_succ]⟩

/-! ### The r/m operand -/

@[simp] theorem Ea.fill_w (ea : Ea) (r : Slots) : (ea.fill r).w = r.w := by cases ea <;> rfl
@[simp] theorem Ea.fill_s (ea : Ea) (r : Slots) : (ea.fill r).s = r.s := by cases ea <;> rfl

/-- The address bytes, low byte first (R75, R84). -/
theorem walkAddress_ok {fetch : Nat → Option Byte} {k : Nat} {st st' : Walk} (hq : st.q = 8 * k)
    (h : walkAddress fetch st = .ok st') :
    ∃ addr : Word, Holds fetch k (wordBytes addr) ∧ st' = { st with
      q := 8 * (k + 2), slots := { st.slots with addrLo := some (loByte addr), addrHi := some (hiByte addr) } } := by
  simp only [walkAddress, hq] at h
  split at h
  next => cases h
  next lo q hlo =>
    obtain ⟨h0, rfl⟩ := takeByte_ok hlo
    split at h
    next => cases h
    next hi q' hhi =>
      obtain ⟨h1, rfl⟩ := takeByte_ok hhi
      exact ⟨join16 hi lo, by simp [wordBytes, holds_cons_iff, h0, h1], by simpa using (Except.ok.inj h).symm⟩

/-- One displacement byte (R82). -/
theorem walkDisp8_ok {fetch : Nat → Option Byte} {k : Nat} {st st' : Walk} (hq : st.q = 8 * k)
    (h : walkDisp8 fetch st = .ok st') : ∃ d, fetch k = some d := by
  simp only [walkDisp8, hq] at h
  split at h
  next => cases h
  next lo q hlo => exact ⟨lo, (takeByte_ok hlo).1⟩

/-- Two displacement bytes, low byte first (R75, R83). -/
theorem walkDisp16_ok {fetch : Nat → Option Byte} {k : Nat} {st st' : Walk} (hq : st.q = 8 * k)
    (h : walkDisp16 fetch st = .ok st') : ∃ d : Word, Holds fetch k (wordBytes d) := by
  simp only [walkDisp16, hq] at h
  split at h
  next => cases h
  next lo q hlo =>
    obtain ⟨h0, rfl⟩ := takeByte_ok hlo
    split at h
    next => cases h
    next hi q' hhi =>
      obtain ⟨h1, -⟩ := takeByte_ok hhi
      exact ⟨join16 hi lo, by simp [wordBytes, holds_cons_iff, h0, h1]⟩

/-- An EA extension that is read is that of some r/m operand with the MOD and RM at hand (R80). -/
theorem exists_ea_of_walkEa_ok {fetch : Nat → Option Byte} {m : BitVec 2} {rm : BitVec 3} {k : Nat} {st st' : Walk}
    (h : walkEa fetch m rm st = .ok st') (hq : st.q = 8 * k) :
    ∃ ea : Ea, ea.wf = true ∧ ea.mod = m ∧ ea.rm = rm ∧ Holds fetch k ea.ext := by
  unfold walkEa at h
  split at h
  next hdirect =>
    obtain ⟨rfl, rfl⟩ := hdirect
    obtain ⟨addr, haddr, -⟩ := walkAddress_ok hq h
    exact ⟨.direct addr, rfl, rfl, rfl, haddr⟩
  next hdirect =>
    split at h
    next h01 =>
      obtain ⟨d, hd⟩ := walkDisp8_ok hq h
      exact ⟨.disp8 rm d, rfl, h01.symm, rfl, holds_cons_iff.2 ⟨hd, holds_nil _ _⟩⟩
    next h01 =>
      split at h
      next h10 =>
        obtain ⟨d, hd⟩ := walkDisp16_ok hq h
        exact ⟨.disp16 rm d, rfl, h10.symm, rfl, hd⟩
      next h10 =>
        by_cases h00 : m = 0b00
        · have hrm : rm ≠ 0b110 := fun e => hdirect ⟨h00, e⟩
          exact ⟨.mem rm, by simpa [Ea.wf] using hrm, h00.symm, rfl, holds_nil _ _⟩
        · have h11 : m = 0b11 := by bv_omega
          exact ⟨.reg rm, rfl, h11.symm, rfl, holds_nil _ _⟩

theorem walkEa_ok {fetch : Nat → Option Byte} {m : BitVec 2} {rm : BitVec 3} {k : Nat} {st st' : Walk}
    (h : walkEa fetch m rm st = .ok st') (hq : st.q = 8 * k) (hm : st.slots.mod = some m) (hr : st.slots.rm = some rm) :
    ∃ ea : Ea, ea.wf = true ∧ ea.mod = m ∧ ea.rm = rm ∧ Holds fetch k ea.ext ∧
      st' = { st with q := 8 * (k + ea.extLen), slots := ea.fill st.slots } := by
  obtain ⟨ea, wf, rfl, rfl, hext⟩ := exists_ea_of_walkEa_ok h hq
  rw [walkEa_ext wf hext st hq hm hr] at h
  cases h
  exact ⟨ea, wf, rfl, rfl, hext, rfl⟩

/-- The RM field of the ModRM byte, with the EA extension after it. -/
theorem walkRm_ok {fetch : Nat → Option Byte} {m : BitVec 2} {mid rm : BitVec 3} {st st' : Walk}
    (h1 : fetch 1 = some (modRm m mid rm)) (hq : st.q = 13) (hm : st.slots.mod = some m)
    (h : walkRm fetch st = .ok st') :
    ∃ ea : Ea, ea.wf = true ∧ Holds fetch 1 (ea.bytes mid) ∧
      st' = { st with q := 8 * (2 + ea.extLen), slots := ea.fill st.slots } := by
  simp [walkRm, hm, takeBits, hq, h1] at h
  obtain ⟨ea, wf, rfl, rfl, hext, rfl⟩ := walkEa_ok (k := 2) h rfl rfl rfl
  refine ⟨ea, wf, holds_cons_iff.2 ⟨h1, hext⟩, ?_⟩
  cases ea <;> rfl

/-- The ModRM byte's three fields as R79 splits it. -/
theorem exists_modRm (b : Byte) : ∃ m mid rm, b = modRm m mid rm := ⟨_, _, _, (modRm_fields b).symm⟩

/-! ### The data bytes -/

/-- The data fields where W alone decides their number (R85). -/
theorem walk_data_ok {fetch : Nat → Option Byte} {g w : Bool} {k : Nat} {st st' : Walk} (hq : st.q = 8 * k)
    (hw : st.slots.w = some w) (hs : st.slots.s ≠ some true)
    (h : walk fetch g [fld .dataLow 8, fld .dataHigh 8] st = .ok st') :
    ∃ data : ImmData, data.w = w ∧ Holds fetch k data.bytes ∧
      st' = { st with q := 8 * (k + data.len), slots := data.fill st.slots } := by
  obtain ⟨st1, hlo, h⟩ := walk_cons_ok.1 h
  obtain ⟨st2, hhi, h⟩ := walk_cons_ok.1 h
  cases h
  obtain ⟨lo, h0, rfl⟩ := walkSlot_byte_ok rfl hq (show walkSlot fetch _ st = _ from hlo)
  obtain ⟨q, sch, mn, slots⟩ := st
  simp only at hw hs hq
  cases w with
  | false =>
    have hp : dataHighPresent (slots.set .dataLow lo.toNat) = false := by simp [dataHighPresent, Slots.set, hw]
    simp [walkField, fld, hp] at hhi
    exact ⟨.byte lo, rfl, by simp [ImmData.bytes, holds_cons_iff, h0],
      by rw [← hhi]; simp [ImmData.fill, ImmData.len, Slots.set, hw]⟩
  | true =>
    have hp : dataHighPresent (slots.set .dataLow lo.toNat) = true := by
      cases hc : slots.s with
      | none => simp [dataHighPresent, Slots.set, hw, hc]
      | some b => cases b <;> simp_all [dataHighPresent, Slots.set]
    simp [walkField, fld, hp] at hhi
    obtain ⟨hi, h1, rfl⟩ := walkSlot_byte_ok (k := k + 1) rfl rfl hhi
    exact ⟨.word (join16 hi lo), rfl, by simp [ImmData.bytes, wordBytes, holds_cons_iff, h0, h1],
      by simp [ImmData.fill, ImmData.len, Slots.set, hw]⟩

/-- The data fields of opcode 83: one byte, since S=1 (R85). -/
theorem walk_data_sx_ok {fetch : Nat → Option Byte} {g : Bool} {k : Nat} {st st' : Walk} (hq : st.q = 8 * k)
    (hs : st.slots.s = some true) (h : walk fetch g [fld .dataLow 8, fld .dataHigh 8] st = .ok st') :
    ∃ lo, fetch k = some lo ∧ st' = { st with q := 8 * (k + 1), slots := { st.slots with dataLo := some lo } } := by
  obtain ⟨st1, hlo, h⟩ := walk_cons_ok.1 h
  obtain ⟨st2, hhi, h⟩ := walk_cons_ok.1 h
  cases h
  obtain ⟨lo, h0, rfl⟩ := walkSlot_byte_ok rfl hq (show walkSlot fetch _ st = _ from hlo)
  have hp : dataHighPresent (st.slots.set .dataLow lo.toNat) = false := by simp [dataHighPresent, Slots.set, hs]
  simp [walkField, fld, hp] at hhi
  exact ⟨lo, h0, by rw [← hhi]; simp [Slots.set]⟩

/-! ### What the walk over an instruction leaves -/

/-- The opcode byte of an instruction. -/
def Instr.opcode (i : Instr) : Byte := (encode i).headD 0

/-- The Decoded Operation of an instruction (R95). -/
def Instr.record (i : Instr) : Decoded :=
  { scheme := i.scheme, mnemonic := i.mnemonic, opcode := i.opcode, slots := i.recordSlots, operands := i.operands,
    kinds := i.operands.map Operand.kind, len := i.len }

/-- What the walker carries before the first field of an entry. -/
def Entry.walkStart (e : Entry) : Walk := { q := 0, scheme := e.scheme, mnemonic := e.mnemonic, slots := {} }

/-- What the walker carries at the end of an instruction. -/
def Instr.walked (i : Instr) : Walk :=
  { q := 8 * i.len, scheme := some i.scheme, mnemonic := i.mnemonic, slots := i.recordSlots }

/-- The walk has ended behind the encoding of a well-formed instruction. -/
def WalkedOver (fetch : Nat → Option Byte) (st : Walk) : Prop :=
  ∃ i : Instr, i.wf = true ∧ Holds fetch 0 (encode i) ∧ st = i.walked

/-! ### The opcode byte -/

theorem bitField_movImmReg : ∀ (w : Bool) (reg : BitVec 3),
    bitField (0b1011#4 ++ bit w ++ reg) 0 4 = 0b1011 ∧ bitField (0b1011#4 ++ bit w ++ reg) 4 1 = w.toNat ∧
    bitField (0b1011#4 ++ bit w ++ reg) 5 3 = reg.toNat := by decide

theorem bitField_jcc : ∀ c : BitVec 4, bitField (0b0111#4 ++ c) 0 4 = 0b0111 ∧ bitField (0b0111#4 ++ c) 4 4 = c.toNat := by
  decide

/-- The opcode bytes that have an entry, by their fields, and the entry of each (R76). -/
inductive OpcodeEntry : Byte → Entry → Prop
  | movRmReg (d w : Bool) : OpcodeEntry (0b100010#6 ++ bit d ++ bit w) ⟨some .movRmReg, "mov", fieldsMovRmReg⟩
  | movSr (d : Bool) : OpcodeEntry (0b100011#6 ++ bit d ++ 0#1) ⟨some .movSr, "mov", fieldsMovSr⟩
  | movImmReg (w : Bool) (reg : BitVec 3) :
    OpcodeEntry (0b1011#4 ++ bit w ++ reg) ⟨some .movImmReg, "mov", fieldsMovImmReg⟩
  | movImmRm (w : Bool) : OpcodeEntry (0b1100011#7 ++ bit w) ⟨some .movImmRm, "mov", fieldsMovImmRm⟩
  | movMemToAcc (w : Bool) : OpcodeEntry (0b1010000#7 ++ bit w) ⟨some .movMemToAcc, "mov", fieldsMovMemToAcc⟩
  | movAccToMem (w : Bool) : OpcodeEntry (0b1010001#7 ++ bit w) ⟨some .movAccToMem, "mov", fieldsMovAccToMem⟩
  | arith (w : Bool) : OpcodeEntry (0b1000000#7 ++ bit w) ⟨none, "", fieldsArithImm⟩
  | arithSx : OpcodeEntry 0b10000011#8 ⟨none, "", fieldsArithImm⟩
  | jcc (c : BitVec 4) : OpcodeEntry (0b0111#4 ++ c) (jccEntry c.toNat (jccInstr (0b0111#4 ++ c) 0).mnemonic)

theorem OpcodeEntry.of_mem_jcc_row {b : Byte} (c : BitVec 4) (hb : b ∈ [0b0111#4 ++ c]) :
    OpcodeEntry b (jccEntry c.toNat (jccInstr (0b0111#4 ++ c) 0).mnemonic) := by
  rw [List.mem_singleton.1 hb]
  exact .jcc c

/-- The rows of the table, one by one. -/
theorem OpcodeEntry.of_mem_row {row : List Byte × Entry} {b : Byte} (hrow : row ∈ schemeTable) (hb : b ∈ row.1) :
    OpcodeEntry b row.2 := by
  simp only [schemeTable, List.mem_cons, List.not_mem_nil, or_false] at hrow
  rcases hrow with rfl | rfl | rfl | rfl | rfl | rfl | rfl | rfl | rfl | rfl | rfl | rfl | rfl | rfl | rfl | rfl | rfl | rfl |
    rfl | rfl | rfl | rfl | rfl
  · obtain ⟨d, w, rfl⟩ : ∃ d w, b = 0b100010#6 ++ bit d ++ bit w := by revert b; decide
    exact .movRmReg d w
  · obtain ⟨d, rfl⟩ : ∃ d, b = 0b100011#6 ++ bit d ++ 0#1 := by revert b; decide
    exact .movSr d
  · obtain ⟨w, reg, rfl⟩ : ∃ (w : Bool) (reg : BitVec 3), b = 0b1011#4 ++ bit w ++ reg := by revert b; decide
    exact .movImmReg w reg
  · obtain ⟨w, rfl⟩ : ∃ w, b = 0b1100011#7 ++ bit w := by revert b; decide
    exact .movImmRm w
  · obtain ⟨w, rfl⟩ : ∃ w, b = 0b1010000#7 ++ bit w := by revert b; decide
    exact .movMemToAcc w
  · obtain ⟨w, rfl⟩ : ∃ w, b = 0b1010001#7 ++ bit w := by revert b; decide
    exact .movAccToMem w
  · obtain ⟨w, rfl⟩ | rfl : (∃ w, b = 0b1000000#7 ++ bit w) ∨ b = 0b10000011#8 := by revert b; decide
    · exact .arith w
    · exact .arithSx
  · exact .of_mem_jcc_row 0x0 hb
  · exact .of_mem_jcc_row 0x1 hb
  · exact .of_mem_jcc_row 0x2 hb
  · exact .of_mem_jcc_row 0x3 hb
  · exact .of_mem_jcc_row 0x4 hb
  · exact .of_mem_jcc_row 0x5 hb
  · exact .of_mem_jcc_row 0x6 hb
  · exact .of_mem_jcc_row 0x7 hb
  · exact .of_mem_jcc_row 0x8 hb
  · exact .of_mem_jcc_row 0x9 hb
  · exact .of_mem_jcc_row 0xA hb
  · exact .of_mem_jcc_row 0xB hb
  · exact .of_mem_jcc_row 0xC hb
  · exact .of_mem_jcc_row 0xD hb
  · exact .of_mem_jcc_row 0xE hb
  · exact .of_mem_jcc_row 0xF hb

theorem OpcodeEntry.of_schemeOf {b : Byte} {e : Entry} (h : schemeOf b = some e) : OpcodeEntry b e := by
  obtain ⟨row, hfind, rfl⟩ := Option.map_eq_some_iff.1 h
  exact .of_mem_row (List.mem_of_find?_eq_some hfind) (by simpa using List.find?_some hfind)

/-- Once the first fields are walked, the rest of the walk is what remains. -/
theorem walk_append_of_ok {fetch : Nat → Option Byte} {g : Bool} {fs gs : List Field} {st st1 : Walk}
    (h : walk fetch g fs st = .ok st1) : walk fetch g (fs ++ gs) st = walk fetch g gs st1 := by
  rw [walk_append, h]

theorem walk_opcode_movRmReg {fetch : Nat → Option Byte} {d w : Bool} (h0 : fetch 0 = some (0b100010#6 ++ bit d ++ bit w)) :
    walk fetch false fieldsMovRmReg (Entry.walkStart ⟨some .movRmReg, "mov", fieldsMovRmReg⟩) =
      walk fetch false [fld .mod 2, fld .reg 3, fld .rm 3]
        ⟨8, some .movRmReg, "mov", { literals := [(6, 0b100010)], d := some d, w := some w }⟩ :=
  walk_append_of_ok (fs := [lit 6 0b100010, fld .d 1, fld .w 1]) (by
    cases d <;> cases w <;>
      simp [walk, walkField, walkLiteral, walkSlot, takeBits, Entry.walkStart, h0, lit, fld, bit, bitField, Slots.set])

theorem walk_opcode_movSr {fetch : Nat → Option Byte} {d : Bool} (h0 : fetch 0 = some (0b100011#6 ++ bit d ++ 0#1)) :
    walk fetch false fieldsMovSr (Entry.walkStart ⟨some .movSr, "mov", fieldsMovSr⟩) =
      walk fetch false [fld .mod 2, lit 1 0, fld .sr 2, fld .rm 3, implied .w 1]
        ⟨8, some .movSr, "mov", { literals := [(6, 0b100011), (1, 0)], d := some d }⟩ :=
  walk_append_of_ok (fs := [lit 6 0b100011, fld .d 1, lit 1 0]) (by
    cases d <;>
      simp [walk, walkField, walkLiteral, walkSlot, takeBits, Entry.walkStart, h0, lit, fld, bit, bitField, Slots.set])

theorem walk_opcode_movImmReg {fetch : Nat → Option Byte} {w : Bool} {reg : BitVec 3}
    (h0 : fetch 0 = some (0b1011#4 ++ bit w ++ reg)) :
    walk fetch false fieldsMovImmReg (Entry.walkStart ⟨some .movImmReg, "mov", fieldsMovImmReg⟩) =
      walk fetch false [fld .dataLow 8, fld .dataHigh 8]
        ⟨8, some .movImmReg, "mov", { literals := [(4, 0b1011)], d := some true, w := some w, reg := some reg }⟩ :=
  walk_append_of_ok (fs := [lit 4 0b1011, fld .w 1, fld .reg 3, implied .d 1]) (by
    obtain ⟨hl, hw, hr⟩ := bitField_movImmReg w reg
    cases w <;>
      simp [walk, walkField, walkLiteral, walkSlot, takeBits, Entry.walkStart, h0, lit, fld, implied, Slots.set, hl, hw, hr])

theorem walk_opcode_movImmRm {fetch : Nat → Option Byte} {w : Bool} (h0 : fetch 0 = some (0b1100011#7 ++ bit w)) :
    walk fetch false fieldsMovImmRm (Entry.walkStart ⟨some .movImmRm, "mov", fieldsMovImmRm⟩) =
      walk fetch false [fld .mod 2, lit 3 0b000, fld .rm 3, fld .dataLow 8, fld .dataHigh 8, implied .d 0]
        ⟨8, some .movImmRm, "mov", { literals := [(7, 0b1100011)], w := some w }⟩ :=
  walk_append_of_ok (fs := [lit 7 0b1100011, fld .w 1]) (by
    cases w <;>
      simp [walk, walkField, walkLiteral, walkSlot, takeBits, Entry.walkStart, h0, lit, fld, bit, bitField, Slots.set])

theorem walk_opcode_movMemToAcc {fetch : Nat → Option Byte} {w : Bool} (h0 : fetch 0 = some (0b1010000#7 ++ bit w)) :
    walk fetch false fieldsMovMemToAcc (Entry.walkStart ⟨some .movMemToAcc, "mov", fieldsMovMemToAcc⟩) =
      walk fetch false [fld .address 16, implied .d 1]
        ⟨8, some .movMemToAcc, "mov", { literals := [(7, 0b1010000)], w := some w }⟩ :=
  walk_append_of_ok (fs := [lit 7 0b1010000, fld .w 1]) (by
    cases w <;>
      simp [walk, walkField, walkLiteral, walkSlot, takeBits, Entry.walkStart, h0, lit, fld, bit, bitField, Slots.set])

theorem walk_opcode_movAccToMem {fetch : Nat → Option Byte} {w : Bool} (h0 : fetch 0 = some (0b1010001#7 ++ bit w)) :
    walk fetch false fieldsMovAccToMem (Entry.walkStart ⟨some .movAccToMem, "mov", fieldsMovAccToMem⟩) =
      walk fetch false [fld .address 16, implied .d 0]
        ⟨8, some .movAccToMem, "mov", { literals := [(7, 0b1010001)], w := some w }⟩ :=
  walk_append_of_ok (fs := [lit 7 0b1010001, fld .w 1]) (by
    cases w <;>
      simp [walk, walkField, walkLiteral, walkSlot, takeBits, Entry.walkStart, h0, lit, fld, bit, bitField, Slots.set])

theorem walk_opcode_arith {fetch : Nat → Option Byte} {s w : Bool} (h0 : fetch 0 = some (0b100000#6 ++ bit s ++ bit w)) :
    walk fetch true fieldsArithImm (Entry.walkStart ⟨none, "", fieldsArithImm⟩) =
      walk fetch true [fld .mod 2, lit 3 0b000, fld .rm 3, fld .dataLow 8, fld .dataHigh 8, implied .d 0]
        ⟨8, none, "", { literals := [(6, 0b100000)], s := some s, w := some w }⟩ :=
  walk_append_of_ok (fs := [lit 6 0b100000, fld .s 1, fld .w 1]) (by
    cases s <;> cases w <;>
      simp [walk, walkField, walkLiteral, walkSlot, takeBits, Entry.walkStart, h0, lit, fld, bit, bitField, Slots.set])

theorem walk_opcode_jcc {fetch : Nat → Option Byte} {c : BitVec 4} {mnemonic : String}
    (h0 : fetch 0 = some (0b0111#4 ++ c)) :
    walk fetch false (fieldsJcc c.toNat) (jccEntry c.toNat mnemonic).walkStart =
      walk fetch false [fld .displacement 8]
        ⟨8, some .jcc, mnemonic, { literals := [(4, 0b0111), (4, c.toNat)] }⟩ :=
  walk_append_of_ok (fs := [lit 4 0b0111, lit 4 c.toNat]) (by
    obtain ⟨hl, hc⟩ := bitField_jcc c
    simp [walk, walkField, walkLiteral, takeBits, Entry.walkStart, jccEntry, h0, lit, hl, hc])

/-! ### The ModRM byte -/

/-- The MOD field opens the ModRM byte. -/
theorem walk_mod_ok {fetch : Nat → Option Byte} {g : Bool} {fs : List Field} {st st' : Walk} (hq : st.q = 8)
    (h : walk fetch g (fld .mod 2 :: fs) st = .ok st') :
    ∃ m mid rm, fetch 1 = some (modRm m mid rm) ∧
      walk fetch g fs { st with q := 10, slots := { st.slots with mod := some m } } = .ok st' := by
  obtain ⟨st1, hf, h⟩ := walk_cons_ok.1 h
  cases h1 : fetch 1 with
  | none => simp [walkField, fld, walkSlot, takeBits, hq, h1] at hf
  | some b =>
    obtain ⟨m, mid, rm, rfl⟩ := exists_modRm b
    simp [walkField, fld, walkSlot, takeBits, hq, h1, Slots.set] at hf
    exact ⟨m, mid, rm, rfl, by rw [hf]; exact h⟩

/-- The RM field closes it, and the EA extension follows. -/
theorem walk_rm_ok {fetch : Nat → Option Byte} {g : Bool} {fs : List Field} {st st' : Walk} {m : BitVec 2} {mid rm : BitVec 3}
    (h1 : fetch 1 = some (modRm m mid rm)) (hq : st.q = 13) (hm : st.slots.mod = some m)
    (h : walk fetch g (fld .rm 3 :: fs) st = .ok st') :
    ∃ ea : Ea, ea.wf = true ∧ Holds fetch 1 (ea.bytes mid) ∧
      walk fetch g fs { st with q := 8 * (2 + ea.extLen), slots := ea.fill st.slots } = .ok st' := by
  obtain ⟨st1, hf, h⟩ := walk_cons_ok.1 h
  obtain ⟨ea, wf, hea, rfl⟩ := walkRm_ok h1 hq hm (show walkRm fetch st = _ from hf)
  exact ⟨ea, wf, hea, h⟩

/-- A REG field between MOD and RM. -/
theorem walk_reg_ok {fetch : Nat → Option Byte} {g : Bool} {fs : List Field} {st st' : Walk} {m : BitVec 2} {mid rm : BitVec 3}
    (h1 : fetch 1 = some (modRm m mid rm)) (hq : st.q = 10) (h : walk fetch g (fld .reg 3 :: fs) st = .ok st') :
    walk fetch g fs { st with q := 13, slots := { st.slots with reg := some mid } } = .ok st' := by
  obtain ⟨st1, hf, h⟩ := walk_cons_ok.1 h
  simp [walkField, fld, walkSlot, takeBits, hq, h1, Slots.set] at hf
  rw [hf]
  exact h

theorem exists_srField_of_bit : ∀ (m : BitVec 2) (mid rm : BitVec 3), bitField (modRm m mid rm) 2 1 = 0 →
    ∃ sr : BitVec 2, mid = 0b0#1 ++ sr := by decide

/-- A 0 and an SR field between MOD and RM (R79). -/
theorem walk_sr_ok {fetch : Nat → Option Byte} {fs : List Field} {st st' : Walk} {m : BitVec 2} {mid rm : BitVec 3}
    (h1 : fetch 1 = some (modRm m mid rm)) (hq : st.q = 10)
    (h : walk fetch false (lit 1 0 :: fld .sr 2 :: fs) st = .ok st') :
    ∃ sr : SegReg, mid = srField sr ∧
      walk fetch false fs { st with
        q := 13, slots := { st.slots with literals := st.slots.literals ++ [(1, 0)], sr := some sr.code } } = .ok st' := by
  obtain ⟨st1, hl, h⟩ := walk_cons_ok.1 h
  obtain ⟨st2, hf, hrest⟩ := walk_cons_ok.1 h
  by_cases h0 : bitField (modRm m mid rm) 2 1 = 0
  · obtain ⟨c, rfl⟩ := exists_srField_of_bit m mid rm h0
    simp [walkField, lit, walkLiteral, takeBits, hq, h1] at hl
    subst hl
    simp [walkField, fld, walkSlot, takeBits, h1, Slots.set] at hf
    refine ⟨segTable c, by rw [srField, code_segTable], ?_⟩
    rw [code_segTable, hf]
    exact hrest
  · simp [walkField, lit, walkLiteral, takeBits, hq, h1, h0] at hl

/-- The literal between MOD and RM of a scheme that is no group (R88). -/
theorem walk_literal_ok {fetch : Nat → Option Byte} {fs : List Field} {st st' : Walk} {m : BitVec 2} {mid rm : BitVec 3}
    (h1 : fetch 1 = some (modRm m mid rm)) (hq : st.q = 10) (h : walk fetch false (lit 3 0b000 :: fs) st = .ok st') :
    mid = 0b000 ∧
      walk fetch false fs { st with
        q := 13, slots := { st.slots with literals := st.slots.literals ++ [(3, 0)] } } = .ok st' := by
  obtain ⟨st1, hl, h⟩ := walk_cons_ok.1 h
  by_cases h0 : mid.toNat = 0
  · simp [walkField, lit, walkLiteral, takeBits, hq, h1, h0] at hl
    exact ⟨BitVec.eq_of_toNat_eq h0, by rw [hl]; exact h⟩
  · simp [walkField, lit, walkLiteral, takeBits, hq, h1, h0] at hl

theorem groupMember_cases {mid : BitVec 3} {p : Scheme × String} (h : groupMember mid.toNat = some p) :
    (mid = 0b000 ∧ p = (.addImm, "add")) ∨ (mid = 0b101 ∧ p = (.subImm, "sub")) := by
  unfold groupMember at h
  split at h
  next h0 => exact .inl ⟨BitVec.eq_of_toNat_eq h0, (Option.some.inj h).symm⟩
  next =>
    split at h
    next h5 => exact .inr ⟨BitVec.eq_of_toNat_eq h5, (Option.some.inj h).symm⟩
    next => cases h

/-- The literal between MOD and RM of the group, which selects the member (R88). -/
theorem walk_selector_ok {fetch : Nat → Option Byte} {fs : List Field} {st st' : Walk} {m : BitVec 2} {mid rm : BitVec 3}
    (h1 : fetch 1 = some (modRm m mid rm)) (hq : st.q = 10) (h : walk fetch true (lit 3 0b000 :: fs) st = .ok st') :
    ∃ sch mn, ((mid = 0b000 ∧ (sch, mn) = (Scheme.addImm, "add")) ∨ (mid = 0b101 ∧ (sch, mn) = (Scheme.subImm, "sub"))) ∧
      walk fetch true fs ⟨13, some sch, mn, { st.slots with literals := st.slots.literals ++ [(3, mid.toNat)] }⟩ = .ok st' := by
  obtain ⟨st1, hl, h⟩ := walk_cons_ok.1 h
  simp [walkField, lit, walkLiteral, takeBits, hq, h1] at hl
  split at hl
  next => cases hl
  next sch mn hsel =>
    refine ⟨sch, mn, groupMember_cases hsel, ?_⟩
    rw [← Except.ok.inj hl] at h
    exact h

/-! ### The walk of each scheme -/

/-- A field of width 0 puts its implied value into its slot (R72). -/
theorem walk_implied {fetch : Nat → Option Byte} {g : Bool} {k : FieldKind} {v : Nat} {fs : List Field} {st : Walk} :
    walk fetch g (implied k v :: fs) st = walk fetch g fs { st with slots := st.slots.set k v } := rfl

theorem walk_movRmReg_ok {fetch : Nat → Option Byte} {d w : Bool} {st : Walk}
    (h0 : fetch 0 = some (0b100010#6 ++ bit d ++ bit w))
    (h : walk fetch false fieldsMovRmReg (Entry.walkStart ⟨some .movRmReg, "mov", fieldsMovRmReg⟩) = .ok st) :
    WalkedOver fetch st := by
  rw [walk_opcode_movRmReg h0] at h
  obtain ⟨m, reg, rm, h1, h⟩ := walk_mod_ok rfl h
  obtain ⟨ea, wf, hea, h⟩ := walk_rm_ok h1 rfl rfl (walk_reg_ok h1 rfl h)
  cases h
  exact ⟨.movRmReg d w reg ea, wf, holds_cons_iff.2 ⟨h0, hea⟩, by cases ea <;> rfl⟩

theorem walk_movSr_ok {fetch : Nat → Option Byte} {d : Bool} {st : Walk}
    (h0 : fetch 0 = some (0b100011#6 ++ bit d ++ 0#1))
    (h : walk fetch false fieldsMovSr (Entry.walkStart ⟨some .movSr, "mov", fieldsMovSr⟩) = .ok st) :
    WalkedOver fetch st := by
  rw [walk_opcode_movSr h0] at h
  obtain ⟨m, mid, rm, h1, h⟩ := walk_mod_ok rfl h
  obtain ⟨sr, rfl, h⟩ := walk_sr_ok h1 rfl h
  obtain ⟨ea, wf, hea, h⟩ := walk_rm_ok h1 rfl rfl h
  rw [walk_implied] at h
  cases h
  cases d with
  | false => exact ⟨.movSegToRm sr ea, wf, holds_cons_iff.2 ⟨h0, hea⟩, by cases ea <;> rfl⟩
  | true => exact ⟨.movRmToSeg sr ea, wf, holds_cons_iff.2 ⟨h0, hea⟩, by cases ea <;> rfl⟩

theorem walk_movImmReg_ok {fetch : Nat → Option Byte} {w : Bool} {reg : BitVec 3} {st : Walk}
    (h0 : fetch 0 = some (0b1011#4 ++ bit w ++ reg))
    (h : walk fetch false fieldsMovImmReg (Entry.walkStart ⟨some .movImmReg, "mov", fieldsMovImmReg⟩) = .ok st) :
    WalkedOver fetch st := by
  rw [walk_opcode_movImmReg h0] at h
  obtain ⟨data, rfl, hdata, rfl⟩ := walk_data_ok (k := 1) rfl rfl (by simp) h
  exact ⟨.movImmReg reg data, rfl, holds_cons_iff.2 ⟨h0, hdata⟩, by cases data <;> rfl⟩

theorem Ea.holds_bytes_append {fetch : Nat → Option Byte} {mid : BitVec 3} {ea : Ea} {bs : List Byte}
    (h : Holds fetch 1 (ea.bytes mid)) (hbs : Holds fetch (2 + ea.extLen) bs) : Holds fetch 1 (ea.bytes mid ++ bs) := by
  refine holds_append_iff.2 ⟨h, ?_⟩
  rw [Ea.length_bytes, ← Nat.add_assoc]
  exact hbs

/-- The fields after the RM field of a scheme with an immediate and an r/m operand. -/
theorem walk_data_implied_ok {fetch : Nat → Option Byte} {g w : Bool} {k : Nat} {st st' : Walk} (hq : st.q = 8 * k)
    (hw : st.slots.w = some w) (hs : st.slots.s ≠ some true)
    (h : walk fetch g [fld .dataLow 8, fld .dataHigh 8, implied .d 0] st = .ok st') :
    ∃ data : ImmData, data.w = w ∧ Holds fetch k data.bytes ∧
      st' = { st with q := 8 * (k + data.len), slots := (data.fill st.slots).set .d 0 } := by
  obtain ⟨st1, hdata, h⟩ := (walk_append_ok (fs := [fld .dataLow 8, fld .dataHigh 8])).1 h
  obtain ⟨data, hw', hb, rfl⟩ := walk_data_ok hq hw hs hdata
  cases h
  exact ⟨data, hw', hb, rfl⟩

theorem walk_movImmRm_ok {fetch : Nat → Option Byte} {w : Bool} {st : Walk}
    (h0 : fetch 0 = some (0b1100011#7 ++ bit w))
    (h : walk fetch false fieldsMovImmRm (Entry.walkStart ⟨some .movImmRm, "mov", fieldsMovImmRm⟩) = .ok st) :
    WalkedOver fetch st := by
  rw [walk_opcode_movImmRm h0] at h
  obtain ⟨m, mid, rm, h1, h⟩ := walk_mod_ok rfl h
  obtain ⟨rfl, h⟩ := walk_literal_ok h1 rfl h
  obtain ⟨ea, wf, hea, h⟩ := walk_rm_ok h1 rfl rfl h
  obtain ⟨data, rfl, hdata, rfl⟩ := walk_data_implied_ok rfl (Ea.fill_w ea _) (by simp) h
  exact ⟨.movImmRm ea data, wf, holds_cons_iff.2 ⟨h0, Ea.holds_bytes_append hea hdata⟩, by cases ea <;> cases data <;> rfl⟩

/-- The address field reads two bytes, low byte first (R84). -/
theorem walk_address_ok {fetch : Nat → Option Byte} {g : Bool} {fs : List Field} {st st' : Walk} (hq : st.q = 8)
    (h : walk fetch g (fld .address 16 :: fs) st = .ok st') :
    ∃ addr : Word, Holds fetch 1 (wordBytes addr) ∧
      walk fetch g fs { st with
        q := 24, slots := { st.slots with addrLo := some (loByte addr), addrHi := some (hiByte addr) } } = .ok st' := by
  obtain ⟨st1, hf, h⟩ := walk_cons_ok.1 h
  obtain ⟨addr, haddr, rfl⟩ := walkAddress_ok (k := 1) hq (show walkAddress fetch st = _ from hf)
  exact ⟨addr, haddr, h⟩

theorem walk_movMemToAcc_ok {fetch : Nat → Option Byte} {w : Bool} {st : Walk}
    (h0 : fetch 0 = some (0b1010000#7 ++ bit w))
    (h : walk fetch false fieldsMovMemToAcc (Entry.walkStart ⟨some .movMemToAcc, "mov", fieldsMovMemToAcc⟩) = .ok st) :
    WalkedOver fetch st := by
  rw [walk_opcode_movMemToAcc h0] at h
  obtain ⟨addr, haddr, h⟩ := walk_address_ok rfl h
  rw [walk_implied] at h
  cases h
  exact ⟨.movMemToAcc w addr, rfl, holds_cons_iff.2 ⟨h0, haddr⟩, rfl⟩

theorem walk_movAccToMem_ok {fetch : Nat → Option Byte} {w : Bool} {st : Walk}
    (h0 : fetch 0 = some (0b1010001#7 ++ bit w))
    (h : walk fetch false fieldsMovAccToMem (Entry.walkStart ⟨some .movAccToMem, "mov", fieldsMovAccToMem⟩) = .ok st) :
    WalkedOver fetch st := by
  rw [walk_opcode_movAccToMem h0] at h
  obtain ⟨addr, haddr, h⟩ := walk_address_ok rfl h
  rw [walk_implied] at h
  cases h
  exact ⟨.movAccToMem w addr, rfl, holds_cons_iff.2 ⟨h0, haddr⟩, rfl⟩

/-- Opcodes 80 and 81: S=0. -/
theorem walk_arith_ok {fetch : Nat → Option Byte} {w : Bool} {st : Walk} (h0 : fetch 0 = some (0b1000000#7 ++ bit w))
    (h : walk fetch true fieldsArithImm (Entry.walkStart ⟨none, "", fieldsArithImm⟩) = .ok st) : WalkedOver fetch st := by
  rw [walk_opcode_arith (s := false) (w := w) (by rw [h0]; cases w <;> rfl)] at h
  obtain ⟨m, mid, rm, h1, h⟩ := walk_mod_ok rfl h
  obtain ⟨sch, mn, hsel, h⟩ := walk_selector_ok h1 rfl h
  obtain ⟨ea, wf, hea, h⟩ := walk_rm_ok h1 rfl rfl h
  obtain ⟨data, rfl, hdata, rfl⟩ := walk_data_implied_ok rfl (Ea.fill_w ea _) (by simp) h
  have hbytes := holds_cons_iff.2 ⟨h0, Ea.holds_bytes_append hea hdata⟩
  obtain ⟨rfl, hp⟩ | ⟨rfl, hp⟩ := hsel
  · cases hp
    exact ⟨.addImm ea data, wf, hbytes, by cases ea <;> cases data <;> rfl⟩
  · cases hp
    exact ⟨.subImm ea data, wf, hbytes, by cases ea <;> cases data <;> rfl⟩

/-- Opcode 83: S=1. -/
theorem walk_arith_sx_ok {fetch : Nat → Option Byte} {st : Walk} (h0 : fetch 0 = some 0b10000011#8)
    (h : walk fetch true fieldsArithImm (Entry.walkStart ⟨none, "", fieldsArithImm⟩) = .ok st) : WalkedOver fetch st := by
  rw [walk_opcode_arith (s := true) (w := true) h0] at h
  obtain ⟨m, mid, rm, h1, h⟩ := walk_mod_ok rfl h
  obtain ⟨sch, mn, hsel, h⟩ := walk_selector_ok h1 rfl h
  obtain ⟨ea, wf, hea, h⟩ := walk_rm_ok h1 rfl rfl h
  obtain ⟨st1, hdata, h⟩ := (walk_append_ok (fs := [fld .dataLow 8, fld .dataHigh 8])).1 h
  obtain ⟨lo, hlo, rfl⟩ := walk_data_sx_ok rfl (Ea.fill_s ea _) hdata
  cases h
  have hbytes := holds_cons_iff.2 ⟨h0, Ea.holds_bytes_append hea (holds_cons_iff.2 ⟨hlo, holds_nil _ _⟩)⟩
  obtain ⟨rfl, hp⟩ | ⟨rfl, hp⟩ := hsel
  · cases hp
    exact ⟨.addImmSx ea lo, wf, hbytes, by cases ea <;> rfl⟩
  · cases hp
    exact ⟨.subImmSx ea lo, wf, hbytes, by cases ea <;> rfl⟩

/-- The jump of each condition code has that code's opcode byte, and the slots of its walk (R76, R171-R186). -/
theorem jccInstr_walked (c : BitVec 4) (d : Byte) :
    (jccInstr (0b0111#4 ++ c) d).wf = true ∧ encode (jccInstr (0b0111#4 ++ c) d) = [0b0111#4 ++ c, d] ∧
    (jccInstr (0b0111#4 ++ c) d).walked =
      ⟨16, some .jcc, (jccInstr (0b0111#4 ++ c) 0).mnemonic, jccSlots c.toNat d⟩ := by
  obtain ⟨n, hn, rfl⟩ : ∃ n, n < 16 ∧ c = BitVec.ofNat 4 n := ⟨c.toNat, c.isLt, by simp⟩
  interval_cases n <;> exact ⟨rfl, rfl, rfl⟩

theorem walk_jcc_ok {fetch : Nat → Option Byte} {c : BitVec 4} {st : Walk} (h0 : fetch 0 = some (0b0111#4 ++ c))
    (h : walk fetch false (fieldsJcc c.toNat) (jccEntry c.toNat (jccInstr (0b0111#4 ++ c) 0).mnemonic).walkStart = .ok st) :
    WalkedOver fetch st := by
  rw [walk_opcode_jcc h0] at h
  obtain ⟨st1, hf, h⟩ := walk_cons_ok.1 h
  obtain ⟨d, h1, rfl⟩ := walkSlot_byte_ok (k := 1) rfl rfl (show walkSlot fetch _ _ = _ from hf)
  cases h
  obtain ⟨wf, henc, hwalked⟩ := jccInstr_walked c d
  refine ⟨jccInstr (0b0111#4 ++ c) d, wf, by simp [henc, holds_cons_iff, h0, h1], ?_⟩
  rw [hwalked]
  simp [jccSlots, Slots.set, fld]

/-- A walk over an entry of the table that succeeds has walked over an instruction. -/
theorem walk_entry_ok {fetch : Nat → Option Byte} {b : Byte} {e : Entry} {st : Walk} (h0 : fetch 0 = some b)
    (he : schemeOf b = some e) (h : walk fetch e.scheme.isNone e.fields e.walkStart = .ok st) : WalkedOver fetch st := by
  cases OpcodeEntry.of_schemeOf he with
  | movRmReg d w => exact walk_movRmReg_ok h0 h
  | movSr d => exact walk_movSr_ok h0 h
  | movImmReg w reg => exact walk_movImmReg_ok h0 h
  | movImmRm w => exact walk_movImmRm_ok h0 h
  | movMemToAcc w => exact walk_movMemToAcc_ok h0 h
  | movAccToMem w => exact walk_movAccToMem_ok h0 h
  | arith w => exact walk_arith_ok h0 h
  | arithSx => exact walk_arith_sx_ok h0 h
  | jcc c => exact walk_jcc_ok h0 h

/-! ### The end of the walk -/

@[simp] theorem Slots.ea_data_fill (data : ImmData) (r : Slots) : (data.fill r).ea = r.ea := by cases data <;> rfl
@[simp] theorem Ea.fill_dataHi (ea : Ea) (r : Slots) : (ea.fill r).dataHi = r.dataHi := by cases ea <;> rfl
@[simp] theorem Ea.fill_d (ea : Ea) (r : Slots) : (ea.fill r).d = r.d := by cases ea <;> rfl
@[simp] theorem Ea.fill_reg (ea : Ea) (r : Slots) : (ea.fill r).reg = r.reg := by cases ea <;> rfl
@[simp] theorem Ea.fill_sr (ea : Ea) (r : Slots) : (ea.fill r).sr = r.sr := by cases ea <;> rfl
@[simp] theorem ImmData.fill_s (data : ImmData) (r : Slots) : (data.fill r).s = r.s := by cases data <;> rfl
@[simp] theorem ImmData.fill_reg (data : ImmData) (r : Slots) : (data.fill r).reg = r.reg := by cases data <;> rfl

theorem arithInstr_eq {r : Slots} {ea : Ea} {data : ImmData} {plain : Ea → ImmData → Instr} {sx : Ea → Byte → Instr}
    (hea : r.ea = some ea) (hs : r.s = some false) (hdata : r.data = some data) :
    arithInstr r plain sx = some (plain ea data) := by
  simp [arithInstr, hea, hs, hdata]

theorem arithInstr_sx_eq {r : Slots} {ea : Ea} {lo : Byte} {plain : Ea → ImmData → Instr} {sx : Ea → Byte → Instr}
    (hea : r.ea = some ea) (hs : r.s = some true) (hw : r.w = some true) (hlo : r.dataLo = some lo) (hhi : r.dataHi = none) :
    arithInstr r plain sx = some (sx ea lo) := by
  simp [arithInstr, hea, hs, hw, hlo, hhi]

/-- The slots of a well-formed instruction stand for that instruction. -/
theorem Slots.instr_recordSlots {i : Instr} (wf : i.wf = true) : i.recordSlots.instr i.opcode i.scheme = some i := by
  cases i with
  | movRmReg d w reg ea => simp [Instr.recordSlots, Instr.scheme, Slots.instr, Slots.ea_fill ea wf]
  | movSegToRm sr ea | movRmToSeg sr ea => simp [Instr.recordSlots, Instr.scheme, Slots.instr, Slots.ea_fill ea wf]
  | movImmReg reg data => simp [Instr.recordSlots, Instr.scheme, Slots.instr, Slots.data_fill]
  | movImmRm ea data => simp [Instr.recordSlots, Instr.scheme, Slots.instr, Slots.ea_fill ea wf, Slots.data_fill]
  | movMemToAcc w addr | movAccToMem w addr => simp [Instr.recordSlots, Instr.scheme, Slots.instr, Slots.address, accSlots]
  | addImm ea data | subImm ea data =>
    exact arithInstr_eq ((Slots.ea_data_fill _ _).trans (Slots.ea_fill ea wf _))
      ((ImmData.fill_s _ _).trans (Ea.fill_s ea _)) (Slots.data_fill data _ (Ea.fill_dataHi ea _))
  | addImmSx ea lo | subImmSx ea lo =>
    exact arithInstr_sx_eq (Slots.ea_fill ea wf _) (Ea.fill_s ea _) rfl rfl (Ea.fill_dataHi ea _)
  | _ => simp [Instr.recordSlots, Instr.scheme, Slots.instr, jccSlots, Instr.opcode, encode, jccInstr]

theorem finish_walked {i : Instr} (wf : i.wf = true) : finish i.opcode i.walked = .ok (i.record, i) := by
  simp [finish, Instr.walked, Slots.instr_recordSlots wf, Instr.record]

/-- The first byte of an encoding is its opcode byte. -/
theorem Holds.fetch_opcode {fetch : Nat → Option Byte} {i : Instr} (h : Holds fetch 0 (encode i)) :
    fetch 0 = some i.opcode := by
  cases i <;> exact (holds_cons_iff.1 h).1

/-- Whatever decodes is a well-formed instruction whose encoding is there, and the record is that instruction's
(R95, R96, R99, R116). -/
theorem decode_ok {fetch : Nat → Option Byte} {rec : Decoded} {i : Instr} (h : decode fetch = .ok (rec, i)) :
    i.wf = true ∧ Holds fetch 0 (encode i) ∧ rec = i.record := by
  unfold decode at h
  split at h
  next => cases h
  next b h0 =>
    split at h
    next => cases h
    next e he =>
      split at h
      next => cases h
      next st hst =>
        obtain ⟨j, wf, hj, rfl⟩ := walk_entry_ok h0 he hst
        rw [show b = j.opcode from Option.some.inj (h0.symm.trans hj.fetch_opcode), finish_walked wf] at h
        cases h
        exact ⟨wf, hj, rfl⟩

/-! ### What decoding says of lengths and lines -/

/-- The encoding of an instruction has as many bytes as the table of R96 says. -/
theorem encode_length : ∀ i : Instr, (encode i).length = i.len
  | .movRmReg d w reg ea => Laws.EncodedLength.movRmReg d w reg ea
  | .movSegToRm sr ea => Laws.EncodedLength.movSegToRm sr ea
  | .movRmToSeg sr ea => Laws.EncodedLength.movRmToSeg sr ea
  | .movImmReg reg data => Laws.EncodedLength.movImmReg reg data
  | .movImmRm ea data => Laws.EncodedLength.movImmRm ea data
  | .movMemToAcc w addr => Laws.EncodedLength.movMemToAcc w addr
  | .movAccToMem w addr => Laws.EncodedLength.movAccToMem w addr
  | .addImm ea data => Laws.EncodedLength.addImm ea data
  | .addImmSx ea lo => Laws.EncodedLength.addImmSx ea lo
  | .subImm ea data => Laws.EncodedLength.subImm ea data
  | .subImmSx ea lo => Laws.EncodedLength.subImmSx ea lo
  | .jo d => Laws.EncodedLength.jo d
  | .jno d => Laws.EncodedLength.jno d
  | .jb d => Laws.EncodedLength.jb d
  | .jnb d => Laws.EncodedLength.jnb d
  | .je d => Laws.EncodedLength.je d
  | .jne d => Laws.EncodedLength.jne d
  | .jbe d => Laws.EncodedLength.jbe d
  | .ja d => Laws.EncodedLength.ja d
  | .js d => Laws.EncodedLength.js d
  | .jns d => Laws.EncodedLength.jns d
  | .jp d => Laws.EncodedLength.jp d
  | .jnp d => Laws.EncodedLength.jnp d
  | .jl d => Laws.EncodedLength.jl d
  | .jnl d => Laws.EncodedLength.jnl d
  | .jle d => Laws.EncodedLength.jle d
  | .jg d => Laws.EncodedLength.jg d

/-- No instruction is shorter than two bytes (R70). -/
theorem Instr.minLength_le_len (i : Instr) : Config.minLength ≤ i.len := by
  cases i with
  | movImmReg reg data => cases data <;> simp [Config.minLength, Instr.len, ImmData.len]
  | _ => simp [Config.minLength, Instr.len] <;> omega

@[simp] theorem Instr.record_len (i : Instr) : i.record.len = i.len := rfl
@[simp] theorem Instr.record_line (i : Instr) : i.record.line = i.line := rfl

theorem decode_none {fetch : Nat → Option Byte} (h : fetch 0 = none) : decode fetch = .error .truncatedStream := by
  simp [decode, h]

end Sys2Proof
end

section
/-! The step and the invariant (R34-R38, R110-R115). -/

namespace Sys2Proof.Machine

/-! ### What an instruction and an error change -/

/-- Every instruction commits, after changing the register file at most (R9, R112). -/
theorem exec_eq_commit (i : Instr) (s : State) : ∃ r, exec i s = commit i { s with regs := r } := by
  cases i with
  | movImmReg reg data => exact ⟨_, rfl⟩
  | movImmRm ea data | addImm ea data | subImm ea data => exact ⟨_, congrArg (commit _) (s.updateRm_eq data.w ea _)⟩
  | addImmSx ea lo | subImmSx ea lo => exact ⟨_, congrArg (commit _) (s.updateRm_eq true ea _)⟩
  | _ => exact ⟨s.regs, rfl⟩

/-- The next state of an instruction, but for its register file (R112). -/
theorem exec_next {i : Instr} {s t : State} (h : exec i s = .next t) :
    ∃ r, t = { s with regs := r, out := s.out ++ [i.line], pos := s.pos + i.len } := by
  obtain ⟨r, hr⟩ := exec_eq_commit i s
  rw [hr, commit_eq] at h
  cases h
  exact ⟨r, rfl⟩

/-- The next state of an error: one byte skipped, or the run ended with the error recorded (R205, R206). -/
theorem raiseError_next {k : ErrKind} {s t : State} (h : raiseError k s = .next t) :
    t = { s with pos := s.pos + 1 } ∨ t = { s with status := .fail, err := some (k, s.pos) } := by
  rw [raiseError_eq] at h
  split at h
  next => exact .inl (Host.Outcome.next.inj h).symm
  next => exact .inr (Host.Outcome.next.inj h).symm

/-- An instruction that decodes lies within the stream (R52, R202). -/
theorem State.pos_add_len_le {s : State} (hwf : s.stream.wf = true) {rec : Decoded} {i : Instr}
    (h : decode s.fetchAtPos = .ok (rec, i)) : s.pos + i.len ≤ s.stream.size := by
  obtain ⟨-, hbytes, -⟩ := decode_ok h
  have hlen : Config.minLength ≤ i.len := i.minLength_le_len
  have hlast := hbytes.fetch_isSome (j := i.len - 1) (by rw [encode_length]; simp [Config.minLength] at hlen; omega)
  have := (Memory.fetch_isSome hwf (s.pos + (i.len - 1))).1 hlast
  omega

/-! ### The invariant -/

theorem State.Inv.err_of_run {s : State} (hinv : s.Inv) (hs : s.status = .run) : s.err = none := by
  have herr := hinv.error
  cases he : s.err with
  | none => rfl
  | some e => simp [State.ErrorRecorded, he, hs] at herr

/-- The end of the stream keeps the invariant (R110). -/
theorem State.Inv.endOfStream {s : State} (hinv : s.Inv) (hs : s.status = .run) (hf : s.fetch s.pos = none) :
    ({ s with status := .done } : State).Inv where
  stream := hinv.stream
  cursor := ⟨hinv.cursor.1, fun _ => Nat.le_antisymm hinv.cursor.1 ((Memory.fetch_eq_none hinv.stream _).1 hf)⟩
  error := by simp [State.ErrorRecorded, hinv.err_of_run hs]
  lines := hinv.lines

/-- A commit keeps the invariant: the instruction lies within the stream and has at least two bytes (R112). -/
theorem State.Inv.commit {s : State} (hinv : s.Inv) (hs : s.status = .run) {rec : Decoded} {i : Instr}
    (hd : decode s.fetchAtPos = .ok (rec, i)) (r : RegFile) :
    ({ s with regs := r, out := s.out ++ [i.line], pos := s.pos + i.len } : State).Inv where
  stream := hinv.stream
  cursor := ⟨State.pos_add_len_le hinv.stream hd, fun h => by simp [hs] at h⟩
  error := by simp [State.ErrorRecorded, hinv.err_of_run hs, hs]
  lines := by
    have hlines := hinv.lines
    have hlen := i.minLength_le_len
    simp only [State.LinesCounted, List.length_append, List.length_singleton, Nat.mul_succ] at hlines ⊢
    omega

/-- A skipped byte lies within the stream (R206). -/
theorem State.Inv.skip {s : State} (hinv : s.Inv) (hs : s.status = .run) {b : Byte} (hb : s.fetch s.pos = some b) :
    ({ s with pos := s.pos + 1 } : State).Inv where
  stream := hinv.stream
  cursor := ⟨Memory.lt_size_of_fetch hinv.stream hb, fun h => by simp [hs] at h⟩
  error := by simp [State.ErrorRecorded, hinv.err_of_run hs, hs]
  lines := Nat.le_succ_of_le hinv.lines

/-- A recorded error names the byte at the cursor (R205). -/
theorem State.Inv.abort {s : State} (hinv : s.Inv) {b : Byte} (hb : s.fetch s.pos = some b) (k : ErrKind) :
    ({ s with status := .fail, err := some (k, s.pos) } : State).Inv where
  stream := hinv.stream
  cursor := ⟨hinv.cursor.1, fun h => by simp at h⟩
  error := ⟨rfl, rfl, Memory.lt_size_of_fetch hinv.stream hb⟩
  lines := hinv.lines

/-- Settles O3: each of the four ways a step answers a next state keeps the invariant. -/
theorem stepKeepsTheInvariant : Obligations.StepKeepsTheInvariant := by
  intro s t hinv h
  obtain ⟨hs, ⟨hf, rfl⟩ | ⟨rec, i, hd, hexec⟩ | ⟨b, k, hb, -, herr⟩⟩ := step_cases h
  · exact hinv.endOfStream hs hf
  · obtain ⟨r, rfl⟩ := exec_next hexec
    exact hinv.commit hs hd r
  · obtain rfl | rfl := raiseError_next herr
    · exact hinv.skip hs hb
    · exact hinv.abort hb k

/-- Settles O7: no step is defined from DONE or FAIL. -/
theorem finalStatesHaveNoStep : Obligations.FinalStatesHaveNoStep := by
  intro s hs
  cases h : s.status with
  | run => exact absurd h hs
  | done => simp [step, h]
  | fail => simp [step, h]

end Sys2Proof.Machine
end

section
/-! The register file and its views (R20-R30). -/

namespace Sys2Proof

/-- The place of a view in the register tables: its W and its code (R30). -/
def View.tablePlace : View → Bool × BitVec 3
  | .ax => (true, 0b000) | .cx => (true, 0b001) | .dx => (true, 0b010) | .bx => (true, 0b011)
  | .sp => (true, 0b100) | .bp => (true, 0b101) | .si => (true, 0b110) | .di => (true, 0b111)
  | .al => (false, 0b000) | .cl => (false, 0b001) | .dl => (false, 0b010) | .bl => (false, 0b011)
  | .ah => (false, 0b100) | .ch => (false, 0b101) | .dh => (false, 0b110) | .bh => (false, 0b111)

theorem View.regTable_tablePlace (v : View) : regTable v.tablePlace.1 v.tablePlace.2 = v := by
  cases v <;> rfl

theorem View.tablePlace_regTable : ∀ (w : Bool) (code : BitVec 3), (regTable w code).tablePlace = (w, code) := by decide

theorem wordView_cls : ∀ code, (wordView code).cls = .full := by decide

theorem byteView_cls_ne_full : ∀ code, (byteView code).cls ≠ .full := by decide

/-- Settles O30: `View.tablePlace` is the inverse of the register tables. -/
theorem registerTableReachesEachViewOnce : Obligations.RegisterTableReachesEachViewOnce := by
  refine ⟨by decide, by decide, fun code => ⟨rfl, rfl⟩, fun v => ⟨_, _, v.regTable_tablePlace⟩,
    fun w w' code code' h => ?_, wordView_cls, byteView_cls_ne_full⟩
  have hplace := congrArg View.tablePlace h
  rw [View.tablePlace_regTable, View.tablePlace_regTable] at hplace
  exact Prod.mk.inj hplace

/-- Settles O49: each row of the table is the definition's. -/
theorem viewsAreThoseOfTheTable : Obligations.ViewsAreThoseOfTheTable := by
  unfold Obligations.ViewsAreThoseOfTheTable
  decide

end Sys2Proof

namespace Sys2Proof.Machine

/-- Settles O27: `RegFile.get_toNat` at each class; a full view shows its storage itself. -/
theorem getReadsTheViewsBytes : Obligations.GetReadsTheViewsBytes := by
  intro r v
  have hget := r.get_toNat v
  refine ⟨fun hc => ?_, fun hc => ?_, fun hc => ?_⟩
  · rw [hc] at hget
    exact BitVec.eq_of_toNat_eq hget
  · rw [hc] at hget
    exact hget
  · rw [hc] at hget
    exact hget

theorem RegFile.read_put_same (r : RegFile) (v : View) (x : Word) :
    (r.put v x).read v.storage = v.cls.merge (r.read v.storage) x := by
  simp [RegFile.read_put]

/-- Settles O28: a put merges its value into its own storage and leaves the others. -/
theorem putWritesTheViewsBytes : Obligations.PutWritesTheViewsBytes := by
  intro r v x
  refine ⟨fun hc => ?_, fun hc => ?_, fun hc => ?_, fun st hst => r.read_put_other v x hst⟩
  · rw [r.read_put_same, hc]
    rfl
  · rw [r.read_put_same, hc]
    rfl
  · rw [r.read_put_same, hc]
    rfl

/-- A put leaves every view of another storage. -/
theorem RegFile.get_put_other_storage (r : RegFile) {v u : View} (x : Word) (h : v.storage ≠ u.storage) :
    (r.put v x).get u = r.get u := by
  simp only [RegFile.get, r.read_put_other v x h.symm]

/-- Settles O29: a full view is 256 times its hi byte and its lo byte, and each byte put sets one of the two. -/
theorem viewsAliasTheirStorage : Obligations.ViewsAliasTheirStorage := by
  intro r f l h a b hf hl hh hlf hhf
  have hlb : l.cls ≠ .full := by simp [hl]
  have hhb : h.cls ≠ .full := by simp [hh]
  have hlh : l ≠ h := fun e => by simp [e, hh] at hl
  have full (q : RegFile) : (q.get f).toNat = (q.get h).toNat * 256 + (q.get l).toNat := by
    rw [q.get_toNat f, q.get_toNat h, q.get_toNat l]
    simp only [hf, hh, hl, hhf, hlf]
    omega
  refine ⟨?_, ?_, ?_, ?_, fun v u => r.get_put_other_storage a, r.get_put_full a hf, r.get_put_byte a hlb,
    r.get_put_byte b hhb⟩
  · rw [full, RegFile.get_put_byte _ b hhb, RegFile.get_put_other_byte _ b hlb hhb hlh, RegFile.get_put_byte _ a hlb]
  · rw [full, RegFile.get_put_byte _ a hlb, RegFile.get_put_other_byte _ a hhb hlb hlh.symm, RegFile.get_put_byte _ b hhb]
  · exact r.get_put_other_byte a hhb hlb hlh.symm
  · exact r.get_put_other_byte b hlb hhb hlh

end Sys2Proof.Machine
end

section
/-! The event of a commit (R39). -/

namespace Sys2Proof.Machine

theorem commitEvent_of_decode {s : State} {rec : Decoded} {i : Instr} (hs : s.status = .run)
    (hd : decode s.fetchAtPos = .ok (rec, i)) :
    commitEvent s = some ⟨s.pos, s.stream.slice s.pos rec.len, rec, rec.line⟩ := by
  simp [commitEvent, hs, hd]

theorem commitEvent_of_error {s : State} {k : ErrKind} (hd : decode s.fetchAtPos = .error k) : commitEvent s = none := by
  simp [commitEvent, hd]

/-- A step that commits runs the instruction the bytes decode to; any other step keeps the log and the registers. -/
theorem step_event_cases {s t : State} (h : step s = .next t) :
    (∃ rec i, decode s.fetchAtPos = .ok (rec, i) ∧ exec i s = .next t ∧
      commitEvent s = some ⟨s.pos, s.stream.slice s.pos rec.len, rec, rec.line⟩) ∨
    (∃ k, decode s.fetchAtPos = .error k ∧ commitEvent s = none ∧ t.out = s.out ∧ t.regs = s.regs) := by
  obtain ⟨hs, ⟨hf, rfl⟩ | ⟨rec, i, hd, hexec⟩ | ⟨b, k, -, hd, herr⟩⟩ := step_cases h
  · have hd := decode_none (fetch := s.fetchAtPos) hf
    exact .inr ⟨_, hd, commitEvent_of_error hd, rfl, rfl⟩
  · exact .inl ⟨rec, i, hd, hexec, commitEvent_of_decode hs hd⟩
  · refine .inr ⟨k, hd, commitEvent_of_error hd, ?_⟩
    obtain rfl | rfl := raiseError_next herr
    · exact ⟨rfl, rfl⟩
    · exact ⟨rfl, rfl⟩

/-- The bytes at the cursor that decode are the encoding of the instruction. -/
theorem slice_of_decode {s : State} {rec : Decoded} {i : Instr} (hd : decode s.fetchAtPos = .ok (rec, i)) :
    s.stream.slice s.pos rec.len = encode i := by
  obtain ⟨-, hbytes, rfl⟩ := decode_ok hd
  rw [Instr.record_len, ← encode_length]
  exact Memory.slice_eq fun k hk => by simpa [State.fetchAtPos, State.fetch] using hbytes k hk

/-- Settles O43: a commit's event is read off the instruction it decodes, and no other step has an event. -/
theorem eventsReportCommits : Obligations.EventsReportCommits := by
  intro s t h
  rcases step_event_cases h with ⟨rec, i, hd, hexec, hev⟩ | ⟨k, hd, hev, hkeep⟩
  · obtain ⟨-, hbytes, hrec⟩ := decode_ok hd
    refine ⟨fun e he => ?_, fun rec' i' hd' => ?_, fun hnone => ?_⟩
    · obtain rfl := Option.some.inj (hev.symm.trans he)
      obtain ⟨r, rfl⟩ := exec_next hexec
      refine ⟨rfl, ⟨i, hd, hexec⟩, ?_, ?_, rfl, ?_, ?_⟩
      · rw [slice_of_decode hd, encode_length, hrec, Instr.record_len]
      · rw [slice_of_decode hd]
        exact hbytes
      · rw [hrec, Instr.record_line]
      · rw [hrec, Instr.record_len]
    · cases hd.symm.trans hd'
      exact ⟨_, hev, rfl⟩
    · rw [hev] at hnone
      cases hnone
  · refine ⟨fun e he => ?_, fun rec' i' hd' => ?_, fun _ => hkeep⟩
    · rw [hev] at he
      cases he
    · rw [hd] at hd'
      cases hd'

end Sys2Proof.Machine
end

section
/-! The register dump (R42). -/

namespace Sys2Proof

theorem View.mem_dumpOrder (v : View) : v ∈ View.dumpOrder := by cases v <;> decide

theorem View.nodup_dumpOrder : View.dumpOrder.Nodup := by decide

end Sys2Proof

namespace Sys2Proof.Machine

/-- The binary digits of a value, most significant first. -/
def digits (n : Nat) (x : Word) : List Char := (List.range n).map fun k => if x.getLsbD (n - 1 - k) then '1' else '0'

theorem binary_eq (n : Nat) (x : Word) : binary n x = String.ofList (digits n x) := rfl

@[simp] theorem digits_length (n : Nat) (x : Word) : (digits n x).length = n := by simp [digits]

theorem digits_succ (n : Nat) (x : Word) :
    digits (n + 1) x = (if x.getLsbD n then '1' else '0') :: digits n x := by
  simp only [digits, List.range_succ_eq_map, List.map_cons, List.map_map, Nat.add_sub_cancel, Nat.sub_zero]
  refine congrArg _ (List.map_congr_left fun k _ => ?_)
  simp only [Function.comp, Nat.succ_eq_add_one, show n - (k + 1) = n - 1 - k by omega]

theorem digits_eq_zero_or_one {n : Nat} {x : Word} {c : Char} (h : c ∈ digits n x) : c = '0' ∨ c = '1' := by
  obtain ⟨k, -, rfl⟩ := List.mem_map.1 h
  split
  next => exact .inr rfl
  next => exact .inl rfl

/-- Read back in base 2, `n` digits are the value's low `n` bits behind what was read before. -/
theorem foldl_digits (n : Nat) (x : Word) (acc : Nat) :
    (digits n x).foldl (fun acc c => acc * 2 + (if c = '1' then 1 else 0)) acc = acc * 2 ^ n + x.toNat % 2 ^ n := by
  induction n generalizing acc with
  | zero => simp [digits, Nat.mod_one]
  | succ n ih =>
    have hbit : (if (if x.getLsbD n then '1' else '0') = '1' then 1 else 0) = (x.getLsbD n).toNat := by
      cases x.getLsbD n <;> rfl
    rw [digits_succ, List.foldl_cons, ih, hbit, BitVec.getLsbD, Nat.toNat_testBit, Nat.mod_pow_succ, Nat.pow_succ]
    ring

/-- The digits a view shows read back as the view's value. -/
theorem foldl_digits_get (r : RegFile) (v : View) :
    (digits (if v.cls = .full then 16 else 8) (r.get v)).foldl (fun acc c => acc * 2 + (if c = '1' then 1 else 0)) 0 =
      (r.get v).toNat := by
  have hword := (r.read v.storage).isLt
  have hget := r.get_toNat v
  rw [foldl_digits, Nat.zero_mul, Nat.zero_add]
  apply Nat.mod_eq_of_lt
  cases hc : v.cls <;> simp only [hc] at hget <;> simp <;> omega

/-- What the dump writes between a view's name and its digits (R42). -/
def dumpSuffix : ViewClass → String
  | .full => ": "
  | .lo => " (lo): "
  | .hi => " (hi): "

theorem dumpLine_eq (r : RegFile) (v : View) :
    dumpLine r v = v.name ++ dumpSuffix v.cls ++ String.ofList (digits (if v.cls = .full then 16 else 8) (r.get v)) := by
  unfold dumpLine
  cases v.cls <;> rfl

theorem dump_of_run {s : State} (h : s.status = .run) : dump s = none := by simp [dump, h]

theorem dump_of_final {s : State} (h : s.status ≠ .run) : dump s = some (View.dumpOrder.map (dumpLine s.regs)) := by
  cases hs : s.status with
  | run => exact absurd hs h
  | done => simp [dump, hs]
  | fail => simp [dump, hs]

/-- Settles O44: the dump is the dump order's lines, and the order has each view at one place. -/
theorem dumpShowsTheSixteenViews : Obligations.DumpShowsTheSixteenViews := by
  refine ⟨fun s => ⟨dump_of_run, fun h => ⟨_, dump_of_final h, by simp [View.dumpOrder], fun k v hk => ?_⟩⟩, rfl, fun v => ?_, rfl⟩
  · refine ⟨digits (if v.cls = .full then 16 else 8) (s.regs.get v), ?_, digits_length _ _, fun c => digits_eq_zero_or_one,
      foldl_digits_get _ _⟩
    rw [List.getElem?_map, hk]
    exact congrArg some (dumpLine_eq s.regs v)
  · obtain ⟨k, hk⟩ := List.mem_iff_getElem?.1 (View.mem_dumpOrder v)
    refine ⟨k, hk, fun j hj => ?_⟩
    obtain ⟨hlt, -⟩ := List.getElem?_eq_some_iff.1 hj
    exact (List.getElem?_inj hlt View.nodup_dumpOrder).1 (hj.trans hk.symm)

end Sys2Proof.Machine
end

section
/-! The inputs of a run: its stream and its policy (R41, R58, R64). -/

namespace Sys2Proof.Machine

/-- Settles O4: the end of the stream, a commit, a skip and a recorded error each write other fields only. -/
theorem stepNeverChangesStreamOrPolicy : Obligations.StepNeverChangesStreamOrPolicy := by
  intro s t h
  obtain ⟨-, ⟨-, rfl⟩ | ⟨rec, i, -, hexec⟩ | ⟨b, k, -, -, herr⟩⟩ := step_cases h
  · exact ⟨rfl, rfl⟩
  · obtain ⟨r, rfl⟩ := exec_next hexec
    exact ⟨rfl, rfl⟩
  · obtain rfl | rfl := raiseError_next herr
    · exact ⟨rfl, rfl⟩
    · exact ⟨rfl, rfl⟩

end Sys2Proof.Machine
end

section
/-! An encoding is decoded: the walk over each entry of the table, field by field, on the bytes `encode` writes (R76-R99, R116). -/

namespace Sys2Proof

/-! ### The ModRM byte -/

/-- The MOD field opens the ModRM byte. -/
theorem walk_mod {fetch : Nat → Option Byte} {g : Bool} {fs : List Field} {st : Walk} {m : BitVec 2} {mid rm : BitVec 3}
    (h1 : fetch 1 = some (modRm m mid rm)) (hq : st.q = 8) :
    walk fetch g (fld .mod 2 :: fs) st = walk fetch g fs { st with q := 10, slots := { st.slots with mod := some m } } := by
  simp [walk, walkField, fld, walkSlot, takeBits, hq, h1, Slots.set]

/-- A REG field between MOD and RM. -/
theorem walk_reg {fetch : Nat → Option Byte} {g : Bool} {fs : List Field} {st : Walk} {m : BitVec 2} {mid rm : BitVec 3}
    (h1 : fetch 1 = some (modRm m mid rm)) (hq : st.q = 10) :
    walk fetch g (fld .reg 3 :: fs) st = walk fetch g fs { st with q := 13, slots := { st.slots with reg := some mid } } := by
  simp [walk, walkField, fld, walkSlot, takeBits, hq, h1, Slots.set]

/-- A 0 and an SR field between MOD and RM (R79). -/
theorem walk_sr {fetch : Nat → Option Byte} {fs : List Field} {st : Walk} {m : BitVec 2} {sr : SegReg} {rm : BitVec 3}
    (h1 : fetch 1 = some (modRm m (srField sr) rm)) (hq : st.q = 10) :
    walk fetch false (lit 1 0 :: fld .sr 2 :: fs) st = walk fetch false fs { st with
      q := 13, slots := { st.slots with literals := st.slots.literals ++ [(1, 0)], sr := some sr.code } } := by
  rw [srField] at h1
  simp [walk, walkField, fld, lit, walkSlot, walkLiteral, takeBits, hq, h1, Slots.set]

/-- The literal between MOD and RM of a scheme that is no group (R88). -/
theorem walk_literal {fetch : Nat → Option Byte} {fs : List Field} {st : Walk} {m : BitVec 2} {rm : BitVec 3}
    (h1 : fetch 1 = some (modRm m 0b000 rm)) (hq : st.q = 10) :
    walk fetch false (lit 3 0b000 :: fs) st = walk fetch false fs { st with
      q := 13, slots := { st.slots with literals := st.slots.literals ++ [(3, 0)] } } := by
  simp [walk, walkField, lit, walkLiteral, takeBits, hq, h1]

/-- The literal between MOD and RM of the group, which selects the member (R88). -/
theorem walk_selector {fetch : Nat → Option Byte} {fs : List Field} {st : Walk} {m : BitVec 2} {mid rm : BitVec 3} {sch : Scheme}
    {mn : String} (h1 : fetch 1 = some (modRm m mid rm)) (hq : st.q = 10) (hsel : groupMember mid.toNat = some (sch, mn)) :
    walk fetch true (lit 3 0b000 :: fs) st =
      walk fetch true fs ⟨13, some sch, mn, { st.slots with literals := st.slots.literals ++ [(3, mid.toNat)] }⟩ := by
  simp [walk, walkField, lit, walkLiteral, takeBits, hq, h1, hsel]

/-- The walk goes on behind a field that is read. -/
theorem walk_cons_of_ok {fetch : Nat → Option Byte} {g : Bool} {f : Field} {fs : List Field} {st st1 : Walk}
    (h : walkField fetch g f st = .ok st1) : walk fetch g (f :: fs) st = walk fetch g fs st1 := by
  simp only [walk, h]

/-- The RM field closes the ModRM byte, and the EA extension follows (R80). -/
theorem walk_rm {fetch : Nat → Option Byte} {g : Bool} {fs : List Field} {st : Walk} {mid : BitVec 3} {ea : Ea}
    (wf : ea.wf = true) (h : Holds fetch 1 (ea.bytes mid)) (hq : st.q = 13) (hm : st.slots.mod = some ea.mod) :
    walk fetch g (fld .rm 3 :: fs) st =
      walk fetch g fs { st with q := 8 * (2 + ea.extLen), slots := ea.fill st.slots } := by
  obtain ⟨h1, hext⟩ := holds_cons_iff.1 h
  have hrm : walkRm fetch st =
      walkEa fetch ea.mod ea.rm { st with q := 16, slots := { st.slots with rm := some ea.rm } } := by
    simp [walkRm, hm, takeBits, hq, h1]
  have hea := walkEa_ext wf hext { st with q := 16, slots := { st.slots with rm := some ea.rm } } rfl hm rfl
  refine walk_cons_of_ok (hrm.trans (hea.trans ?_))
  cases ea <;> rfl

/-! ### The bytes behind it -/

/-- A field of one whole byte, at a byte boundary. -/
theorem walkSlot_byte {fetch : Nat → Option Byte} {f : Field} {k : Nat} {st : Walk} {b : Byte} (hk : fetch k = some b)
    (hw : f.width = 8) (hq : st.q = 8 * k) :
    walkSlot fetch f st = .ok { st with q := 8 * (k + 1), slots := st.slots.set f.kind b.toNat } := by
  simp [walkSlot, takeBits, hk, hw, hq, Nat.mul_succ]

/-- The displacement byte of a conditional jump. -/
theorem walk_displacement {fetch : Nat → Option Byte} {g : Bool} {fs : List Field} {k : Nat} {st : Walk} {d : Byte}
    (hk : fetch k = some d) (hq : st.q = 8 * k) :
    walk fetch g (fld .displacement 8 :: fs) st =
      walk fetch g fs { st with q := 8 * (k + 1), slots := { st.slots with dispLo := some d } } :=
  walk_cons_of_ok ((walkSlot_byte (f := fld .displacement 8) hk rfl hq).trans (by simp [fld, Slots.set]))

/-- The data byte that is always there (R85). -/
theorem walk_dataLow {fetch : Nat → Option Byte} {g : Bool} {fs : List Field} {k : Nat} {st : Walk} {lo : Byte}
    (hk : fetch k = some lo) (hq : st.q = 8 * k) :
    walk fetch g (fld .dataLow 8 :: fs) st =
      walk fetch g fs { st with q := 8 * (k + 1), slots := { st.slots with dataLo := some lo } } :=
  walk_cons_of_ok ((walkSlot_byte (f := fld .dataLow 8) hk rfl hq).trans (by simp [fld, Slots.set]))

/-- A `DataHigh` field that is there (R85). -/
theorem walk_dataHigh {fetch : Nat → Option Byte} {g : Bool} {fs : List Field} {k : Nat} {st : Walk} {hi : Byte}
    (hp : dataHighPresent st.slots = true) (hk : fetch k = some hi) (hq : st.q = 8 * k) :
    walk fetch g (fld .dataHigh 8 :: fs) st =
      walk fetch g fs { st with q := 8 * (k + 1), slots := { st.slots with dataHi := some hi } } :=
  walk_cons_of_ok ((if_pos hp).trans ((walkSlot_byte (f := fld .dataHigh 8) hk rfl hq).trans (by simp [fld, Slots.set])))

/-- A `DataHigh` field that is not there (R85). -/
theorem walk_dataHigh_absent {fetch : Nat → Option Byte} {g : Bool} {fs : List Field} {st : Walk}
    (hp : dataHighPresent st.slots = false) : walk fetch g (fld .dataHigh 8 :: fs) st = walk fetch g fs st :=
  walk_cons_of_ok (by simp [walkField, fld, hp])

/-- Where S is absent or 0, W decides on `DataHigh`. -/
theorem dataHighPresent_eq {r : Slots} {w : Bool} (hw : r.w = some w) (hs : r.s ≠ some true) : dataHighPresent r = w := by
  rcases hc : r.s with _ | _ | _
  · simp [dataHighPresent, hw, hc]
  · simp [dataHighPresent, hw, hc]
  · exact absurd hc hs

/-- The data fields where W alone decides their number (R85). -/
theorem walk_data {fetch : Nat → Option Byte} {g : Bool} {fs : List Field} {k : Nat} {st : Walk} {data : ImmData}
    (h : Holds fetch k data.bytes) (hq : st.q = 8 * k) (hw : st.slots.w = some data.w) (hs : st.slots.s ≠ some true) :
    walk fetch g (fld .dataLow 8 :: fld .dataHigh 8 :: fs) st =
      walk fetch g fs { st with q := 8 * (k + data.len), slots := data.fill st.slots } := by
  obtain ⟨q, sch, mn, slots⟩ := st
  simp only at hw
  cases data with
  | byte lo =>
    obtain ⟨h0, -⟩ := holds_cons_iff.1 h
    rw [walk_dataLow h0 hq, walk_dataHigh_absent (dataHighPresent_eq (w := false) (by exact hw) (by exact hs))]
    simp [ImmData.fill, ImmData.len, ImmData.w, hw]
  | word v =>
    obtain ⟨h0, h1⟩ := holds_cons_iff.1 h
    obtain ⟨h1, -⟩ := holds_cons_iff.1 h1
    rw [walk_dataLow h0 hq, walk_dataHigh (dataHighPresent_eq (w := true) (by exact hw) (by exact hs)) h1 (by rfl)]
    simp [ImmData.fill, ImmData.len, ImmData.w, hw]

/-- The data fields of opcode 83: one byte, since S=1 (R85). -/
theorem walk_data_sx {fetch : Nat → Option Byte} {g : Bool} {fs : List Field} {k : Nat} {st : Walk} {lo : Byte}
    (h : fetch k = some lo) (hq : st.q = 8 * k) (hs : st.slots.s = some true) :
    walk fetch g (fld .dataLow 8 :: fld .dataHigh 8 :: fs) st =
      walk fetch g fs { st with q := 8 * (k + 1), slots := { st.slots with dataLo := some lo } } := by
  rw [walk_dataLow h hq, walk_dataHigh_absent (by simp [dataHighPresent, hs])]

/-- The address field reads two bytes, low byte first (R84). -/
theorem walk_address {fetch : Nat → Option Byte} {g : Bool} {fs : List Field} {st : Walk} {addr : Word}
    (h : Holds fetch 1 (wordBytes addr)) (hq : st.q = 8) :
    walk fetch g (fld .address 16 :: fs) st = walk fetch g fs { st with
      q := 24, slots := { st.slots with addrLo := some (loByte addr), addrHi := some (hiByte addr) } } := by
  obtain ⟨h1, h2⟩ := holds_cons_iff.1 h
  obtain ⟨h2, -⟩ := holds_cons_iff.1 h2
  exact walk_cons_of_ok (by
    simp [walkField, fld, walkAddress, hq, takeByte_some (k := 1) h1, takeByte_some (k := 2) h2])

/-! ### The walk over each instruction -/

theorem OpcodeEntry.schemeOf_eq {b : Byte} {e : Entry} (h : OpcodeEntry b e) : schemeOf b = some e := by
  cases h with
  | movRmReg d w => cases d <;> cases w <;> rfl
  | movSr d => cases d <;> rfl
  | movImmReg w reg => revert w reg; decide
  | movImmRm w | movMemToAcc w | movAccToMem w | arith w => cases w <;> rfl
  | arithSx => rfl
  | jcc c => revert c; decide

/-- The walk over the entry of an instruction's opcode byte ends behind that instruction. -/
def WalksTo (fetch : Nat → Option Byte) (i : Instr) : Prop :=
  ∃ e, OpcodeEntry i.opcode e ∧ walk fetch e.scheme.isNone e.fields e.walkStart = .ok i.walked

section
variable {fetch : Nat → Option Byte}

theorem walksTo_movRmReg {d w : Bool} {reg : BitVec 3} {ea : Ea} (wf : ea.wf = true)
    (h : Holds fetch 0 (encode (.movRmReg d w reg ea))) : WalksTo fetch (.movRmReg d w reg ea) := by
  obtain ⟨h0, hea⟩ := holds_cons_iff.1 h
  obtain ⟨h1, -⟩ := holds_cons_iff.1 hea
  refine ⟨_, .movRmReg d w, (walk_opcode_movRmReg h0).trans ?_⟩
  rw [walk_mod h1 rfl, walk_reg h1 rfl, walk_rm wf hea rfl rfl]
  cases ea <;> rfl

/-- 8C and 8E: the SR field takes the place of REG. -/
theorem walk_movSr {d : Bool} {sr : SegReg} {ea : Ea} (wf : ea.wf = true)
    (h : Holds fetch 0 ((0b100011#6 ++ bit d ++ 0#1) :: ea.bytes (srField sr))) :
    walk fetch false fieldsMovSr (Entry.walkStart ⟨some .movSr, "mov", fieldsMovSr⟩) =
      .ok ⟨8 * (2 + ea.extLen), some .movSr, "mov",
        ea.fill { literals := [(6, 0b100011), (1, 0), (1, 0)], d := some d, w := some true, sr := some sr.code }⟩ := by
  obtain ⟨h0, hea⟩ := holds_cons_iff.1 h
  obtain ⟨h1, -⟩ := holds_cons_iff.1 hea
  rw [walk_opcode_movSr h0, walk_mod h1 rfl, walk_sr h1 rfl, walk_rm wf hea rfl rfl, walk_implied]
  cases ea <;> rfl

theorem walksTo_movImmReg {reg : BitVec 3} {data : ImmData} (h : Holds fetch 0 (encode (.movImmReg reg data))) :
    WalksTo fetch (.movImmReg reg data) := by
  obtain ⟨h0, hdata⟩ := holds_cons_iff.1 h
  refine ⟨_, .movImmReg data.w reg, (walk_opcode_movImmReg h0).trans ?_⟩
  rw [walk_data hdata rfl rfl (by simp)]
  cases data <;> rfl

theorem Ea.holds_of_append {mid : BitVec 3} {ea : Ea} {bs : List Byte} (h : Holds fetch 1 (ea.bytes mid ++ bs)) :
    Holds fetch 1 (ea.bytes mid) ∧ Holds fetch (2 + ea.extLen) bs := by
  obtain ⟨hea, hbs⟩ := holds_append_iff.1 h
  rw [Ea.length_bytes, ← Nat.add_assoc] at hbs
  exact ⟨hea, hbs⟩

theorem walksTo_movImmRm {ea : Ea} {data : ImmData} (wf : ea.wf = true)
    (h : Holds fetch 0 (encode (.movImmRm ea data))) : WalksTo fetch (.movImmRm ea data) := by
  obtain ⟨h0, hrest⟩ := holds_cons_iff.1 h
  obtain ⟨hea, hdata⟩ := Ea.holds_of_append hrest
  obtain ⟨h1, -⟩ := holds_cons_iff.1 hea
  refine ⟨_, .movImmRm data.w, (walk_opcode_movImmRm h0).trans ?_⟩
  rw [walk_mod h1 rfl, walk_literal h1 rfl, walk_rm wf hea rfl rfl, walk_data hdata rfl (Ea.fill_w ea _) (by simp),
    walk_implied]
  cases ea <;> cases data <;> rfl

theorem walksTo_movMemToAcc {w : Bool} {addr : Word} (h : Holds fetch 0 (encode (.movMemToAcc w addr))) :
    WalksTo fetch (.movMemToAcc w addr) := by
  obtain ⟨h0, haddr⟩ := holds_cons_iff.1 h
  refine ⟨_, .movMemToAcc w, (walk_opcode_movMemToAcc h0).trans ?_⟩
  rw [walk_address haddr rfl]
  rfl

theorem walksTo_movAccToMem {w : Bool} {addr : Word} (h : Holds fetch 0 (encode (.movAccToMem w addr))) :
    WalksTo fetch (.movAccToMem w addr) := by
  obtain ⟨h0, haddr⟩ := holds_cons_iff.1 h
  refine ⟨_, .movAccToMem w, (walk_opcode_movAccToMem h0).trans ?_⟩
  rw [walk_address haddr rfl]
  rfl

/-- 80 and 81: the selector picks the member, W the number of data bytes. -/
theorem walk_arith {mid : BitVec 3} {sch : Scheme} {mn : String} {ea : Ea} {data : ImmData} (wf : ea.wf = true)
    (hsel : groupMember mid.toNat = some (sch, mn))
    (h : Holds fetch 0 ((0b1000000#7 ++ bit data.w) :: (ea.bytes mid ++ data.bytes))) :
    walk fetch true fieldsArithImm (Entry.walkStart ⟨none, "", fieldsArithImm⟩) =
      .ok ⟨8 * (2 + ea.extLen + data.len), some sch, mn, data.fill (ea.fill (arithSlots mid.toNat false))⟩ := by
  obtain ⟨h0, hrest⟩ := holds_cons_iff.1 h
  obtain ⟨hea, hdata⟩ := Ea.holds_of_append hrest
  obtain ⟨h1, -⟩ := holds_cons_iff.1 hea
  rw [walk_opcode_arith (s := false) (w := data.w) (by rw [h0]; cases data <;> rfl), walk_mod h1 rfl,
    walk_selector h1 rfl hsel, walk_rm wf hea rfl rfl, walk_data hdata rfl (Ea.fill_w ea _) (by simp), walk_implied]
  cases ea <;> cases data <;> rfl

/-- 83: the selector picks the member, and there is one data byte. -/
theorem walk_arith_sx {mid : BitVec 3} {sch : Scheme} {mn : String} {ea : Ea} {lo : Byte} (wf : ea.wf = true)
    (hsel : groupMember mid.toNat = some (sch, mn))
    (h : Holds fetch 0 (0b10000011#8 :: (ea.bytes mid ++ [lo]))) :
    walk fetch true fieldsArithImm (Entry.walkStart ⟨none, "", fieldsArithImm⟩) =
      .ok ⟨8 * (3 + ea.extLen), some sch, mn,
        { ea.fill (arithSlots mid.toNat true) with w := some true, dataLo := some lo }⟩ := by
  obtain ⟨h0, hrest⟩ := holds_cons_iff.1 h
  obtain ⟨hea, hlo⟩ := Ea.holds_of_append hrest
  obtain ⟨h1, -⟩ := holds_cons_iff.1 hea
  rw [walk_opcode_arith (s := true) (w := true) h0, walk_mod h1 rfl, walk_selector h1 rfl hsel, walk_rm wf hea rfl rfl,
    walk_data_sx (holds_cons_iff.1 hlo).1 rfl (Ea.fill_s ea _), walk_implied]
  cases ea <;> rfl

/-- Every conditional jump is the one of its opcode byte. -/
theorem Instr.exists_eq_jccInstr {i : Instr} (h : i.scheme = .jcc) :
    ∃ (c : BitVec 4) (d : Byte), i = jccInstr (0b0111#4 ++ c) d := by
  cases i with
  | movRmReg | movSegToRm | movRmToSeg | movImmReg | movImmRm | movMemToAcc | movAccToMem | addImm | addImmSx | subImm
  | subImmSx => cases h
  | jo d => exact ⟨0x0, d, rfl⟩
  | jno d => exact ⟨0x1, d, rfl⟩
  | jb d => exact ⟨0x2, d, rfl⟩
  | jnb d => exact ⟨0x3, d, rfl⟩
  | je d => exact ⟨0x4, d, rfl⟩
  | jne d => exact ⟨0x5, d, rfl⟩
  | jbe d => exact ⟨0x6, d, rfl⟩
  | ja d => exact ⟨0x7, d, rfl⟩
  | js d => exact ⟨0x8, d, rfl⟩
  | jns d => exact ⟨0x9, d, rfl⟩
  | jp d => exact ⟨0xA, d, rfl⟩
  | jnp d => exact ⟨0xB, d, rfl⟩
  | jl d => exact ⟨0xC, d, rfl⟩
  | jnl d => exact ⟨0xD, d, rfl⟩
  | jle d => exact ⟨0xE, d, rfl⟩
  | jg d => exact ⟨0xF, d, rfl⟩

theorem walksTo_jcc {i : Instr} (hi : i.scheme = .jcc) (h : Holds fetch 0 (encode i)) : WalksTo fetch i := by
  obtain ⟨c, d, rfl⟩ := Instr.exists_eq_jccInstr hi
  obtain ⟨-, henc, hwalked⟩ := jccInstr_walked c d
  rw [henc] at h
  obtain ⟨h0, h1⟩ := holds_cons_iff.1 h
  obtain ⟨h1, -⟩ := holds_cons_iff.1 h1
  refine ⟨jccEntry c.toNat (jccInstr (0b0111#4 ++ c) 0).mnemonic, ?_, ?_⟩
  · rw [Instr.opcode, henc]
    exact .jcc c
  · refine (walk_opcode_jcc h0).trans ?_
    rw [walk_displacement h1 rfl, hwalked]
    rfl

theorem walksTo_of_holds {i : Instr} (wf : i.wf = true) (h : Holds fetch 0 (encode i)) : WalksTo fetch i := by
  cases i with
  | movRmReg d w reg ea => exact walksTo_movRmReg wf h
  | movSegToRm sr ea => exact ⟨_, .movSr false, walk_movSr wf h⟩
  | movRmToSeg sr ea => exact ⟨_, .movSr true, walk_movSr wf h⟩
  | movImmReg reg data => exact walksTo_movImmReg h
  | movImmRm ea data => exact walksTo_movImmRm wf h
  | movMemToAcc w addr => exact walksTo_movMemToAcc h
  | movAccToMem w addr => exact walksTo_movAccToMem h
  | addImm ea data => exact ⟨_, .arith data.w, walk_arith wf rfl h⟩
  | addImmSx ea lo => exact ⟨_, .arithSx, walk_arith_sx wf rfl h⟩
  | subImm ea data => exact ⟨_, .arith data.w, walk_arith wf rfl h⟩
  | subImmSx ea lo => exact ⟨_, .arithSx, walk_arith_sx wf rfl h⟩
  | _ => exact walksTo_jcc rfl h

/-! ### Decoding is the walk over the entry of the opcode byte -/

theorem decode_of_walk_error {b : Byte} {e : Entry} {k : ErrKind} (h0 : fetch 0 = some b) (he : OpcodeEntry b e)
    (h : walk fetch e.scheme.isNone e.fields e.walkStart = .error k) : decode fetch = .error k := by
  rw [Entry.walkStart] at h
  simp [decode, h0, he.schemeOf_eq, h]

/-- The encoding of a well-formed instruction decodes to that instruction and its record (R95, R116). -/
theorem decode_of_holds {i : Instr} (wf : i.wf = true) (h : Holds fetch 0 (encode i)) : decode fetch = .ok (i.record, i) := by
  obtain ⟨e, he, hwalk⟩ := walksTo_of_holds wf h
  rw [Entry.walkStart] at hwalk
  simp [decode, h.fetch_opcode, he.schemeOf_eq, hwalk, finish_walked wf]

end

/-- The first byte of an encoding is its opcode byte. -/
theorem encode_head? (i : Instr) : (encode i).head? = some i.opcode := by cases i <;> rfl

/-- Settles O19: the walk over an encoding fills the record of its instruction. -/
theorem decodeOfEncode : Obligations.DecodeOfEncode := fun _ i wf h =>
  ⟨i.record, decode_of_holds wf h, rfl, rfl, encode_head? i, rfl, rfl, rfl, rfl⟩

/-- Settles O20: `decode_ok`, with the length of an encoding. -/
theorem encodeOfDecode : Obligations.EncodeOfDecode := by
  intro fetch rec i h
  obtain ⟨wf, hbytes, rfl⟩ := decode_ok h
  exact ⟨wf, (encode_length i).symm, hbytes⟩

end Sys2Proof
end

section
/-! The errors of decoding (R77, R88, R89, R202). -/

namespace Sys2Proof

section
variable {fetch : Nat → Option Byte} {g : Bool} {k : ErrKind}

/-! ### Reading past the end of the stream -/

theorem takeBits_error {q w : Nat} (h : takeBits fetch q w = .error k) : k = .truncatedStream := by
  unfold takeBits at h
  split at h <;> cases h
  rfl

theorem takeByte_error {q : Nat} (h : takeByte fetch q = .error k) : k = .truncatedStream := by
  unfold takeByte at h
  split at h
  next e he => cases h; exact takeBits_error he
  next => cases h

theorem walkSlot_error {f : Field} {st : Walk} (h : walkSlot fetch f st = .error k) : k = .truncatedStream := by
  unfold walkSlot at h
  split at h
  next e he => cases h; exact takeBits_error he
  next => cases h

theorem walkAddress_error {st : Walk} (h : walkAddress fetch st = .error k) : k = .truncatedStream := by
  unfold walkAddress at h
  split at h
  next e he => cases h; exact takeByte_error he
  next =>
    split at h
    next e he => cases h; exact takeByte_error he
    next => cases h

theorem walkDisp8_error {st : Walk} (h : walkDisp8 fetch st = .error k) : k = .truncatedStream := by
  unfold walkDisp8 at h
  split at h
  next e he => cases h; exact takeByte_error he
  next => cases h

theorem walkDisp16_error {st : Walk} (h : walkDisp16 fetch st = .error k) : k = .truncatedStream := by
  unfold walkDisp16 at h
  split at h
  next e he => cases h; exact takeByte_error he
  next =>
    split at h
    next e he => cases h; exact takeByte_error he
    next => cases h

theorem walkEa_error {m : BitVec 2} {rm : BitVec 3} {st : Walk} (h : walkEa fetch m rm st = .error k) :
    k = .truncatedStream := by
  unfold walkEa at h
  split at h
  next => exact walkAddress_error h
  next =>
    split at h
    next => exact walkDisp8_error h
    next =>
      split at h
      next => exact walkDisp16_error h
      next => cases h

/-- Once MOD is known, an RM field raises nothing but the end of the stream. -/
theorem walkRm_error {m : BitVec 2} {st : Walk} (hm : st.slots.mod = some m) (h : walkRm fetch st = .error k) :
    k = .truncatedStream := by
  unfold walkRm at h
  rw [hm] at h
  simp only at h
  split at h
  next e he => cases h; exact takeBits_error he
  next => exact walkEa_error h

/-- A field that is neither a literal nor RM raises nothing but the end of the stream. -/
theorem walkField_error {f : Field} {st : Walk} (hf : f.kind ≠ .literal ∧ f.kind ≠ .rm)
    (h : walkField fetch g f st = .error k) : k = .truncatedStream := by
  unfold walkField at h
  split at h
  next => cases h
  next =>
    cases hk : f.kind with
    | literal => exact absurd hk hf.1
    | rm => exact absurd hk hf.2
    | address => rw [hk] at h; exact walkAddress_error h
    | dataHigh =>
      rw [hk] at h
      simp only at h
      split at h
      next => exact walkSlot_error h
      next => cases h
    | d | s | w | mod | reg | sr | displacement | dataLow => rw [hk] at h; exact walkSlot_error h

theorem walk_cons_error {f : Field} {fs : List Field} {st : Walk} (h : walk fetch g (f :: fs) st = .error k) :
    walkField fetch g f st = .error k ∨ ∃ st1, walk fetch g fs st1 = .error k := by
  simp only [walk] at h
  split at h
  next e he => cases h; exact .inl he
  next st1 _ => exact .inr ⟨st1, h⟩

/-- Fields that are neither literals nor RM raise nothing but the end of the stream. -/
theorem walk_error {fs : List Field} {st : Walk} (hfs : ∀ f ∈ fs, f.kind ≠ .literal ∧ f.kind ≠ .rm)
    (h : walk fetch g fs st = .error k) : k = .truncatedStream := by
  induction fs generalizing st with
  | nil => cases h
  | cons f fs ih =>
    obtain ⟨hf, hfs⟩ := List.forall_mem_cons.1 hfs
    obtain h | ⟨st1, h⟩ := walk_cons_error h
    · exact walkField_error hf h
    · exact ih hfs h

/-- Behind the literals only the end of the stream is left to be met (R89). -/
theorem walk_rm_error {fs : List Field} {m : BitVec 2} {st : Walk} (hm : st.slots.mod = some m)
    (hfs : ∀ f ∈ fs, f.kind ≠ .literal ∧ f.kind ≠ .rm) (h : walk fetch g (fld .rm 3 :: fs) st = .error k) :
    k = .truncatedStream := by
  obtain h | ⟨st1, h⟩ := walk_cons_error h
  · exact walkRm_error hm h
  · exact walk_error hfs h

/-! ### Literals that do not match -/

theorem walk_mod_none {fs : List Field} {st : Walk} (h1 : fetch 1 = none) (hq : st.q = 8) :
    walk fetch g (fld .mod 2 :: fs) st = .error .truncatedStream := by
  simp [walk, walkField, fld, walkSlot, takeBits, hq, h1]

theorem walk_sr_mismatch {fs : List Field} {st : Walk} {b : Byte} (h1 : fetch 1 = some b) (hq : st.q = 10)
    (hb : bitField b 2 1 ≠ 0) : walk fetch false (lit 1 0 :: fs) st = .error .unknownOpcode := by
  simp [walk, walkField, lit, walkLiteral, takeBits, hq, h1, hb]

theorem walk_literal_mismatch {fs : List Field} {st : Walk} {m : BitVec 2} {mid rm : BitVec 3}
    (h1 : fetch 1 = some (modRm m mid rm)) (hq : st.q = 10) (hmid : mid ≠ 0b000) :
    walk fetch false (lit 3 0b000 :: fs) st = .error .unknownOpcode := by
  have h0 : mid.toNat ≠ 0 := fun e => hmid (BitVec.eq_of_toNat_eq e)
  simp [walk, walkField, lit, walkLiteral, takeBits, hq, h1, h0]

theorem walk_selector_mismatch {fs : List Field} {st : Walk} {m : BitVec 2} {mid rm : BitVec 3}
    (h1 : fetch 1 = some (modRm m mid rm)) (hq : st.q = 10) (hsel : groupMember mid.toNat = none) :
    walk fetch true (lit 3 0b000 :: fs) st = .error .unknownOpcode := by
  simp [walk, walkField, lit, walkLiteral, takeBits, hq, h1, hsel]

theorem literalMismatch_eq_false {opcode : Byte} (modrm : Byte) (h : opcode ∉ [0xC6#8, 0xC7, 0x8C, 0x8E, 0x80, 0x81, 0x83]) :
    literalMismatch opcode modrm = false := by
  simp_all [literalMismatch]

theorem literalMismatch_movSr : ∀ (d : Bool) (m : BitVec 2) (mid rm : BitVec 3),
    literalMismatch (0b100011#6 ++ bit d ++ 0#1) (modRm m mid rm) = (bitField (modRm m mid rm) 2 1 != 0) := by decide

theorem literalMismatch_movImmRm : ∀ (w : Bool) (m : BitVec 2) (mid rm : BitVec 3),
    literalMismatch (0b1100011#7 ++ bit w) (modRm m mid rm) = (mid != 0b000) := by decide

theorem literalMismatch_arith : ∀ opcode ∈ [0x80#8, 0x81, 0x83], ∀ (m : BitVec 2) (mid rm : BitVec 3),
    literalMismatch opcode (modRm m mid rm) = (groupMember mid.toNat).isNone := by decide

/-! ### What a walk over an entry can raise -/

/-- The ModRM byte is there and its literal does not match (R88). -/
def MismatchAt (fetch : Nat → Option Byte) (opcode : Byte) : Prop := ∃ m, fetch 1 = some m ∧ literalMismatch opcode m = true

/-- UnknownOpcode where the literal mismatches, and no error but TruncatedStream where it does not. -/
def ErrorsAsLiteralSays (fetch : Nat → Option Byte) (opcode : Byte) (o : Except ErrKind Walk) : Prop :=
  (MismatchAt fetch opcode ∧ o = .error .unknownOpcode) ∨
  (¬ MismatchAt fetch opcode ∧ ∀ k, o = .error k → k = .truncatedStream)

/-- A scheme with no ModRM byte: behind the opcode byte it has neither a literal nor an RM field. -/
theorem ErrorsAsLiteralSays.of_walk {opcode : Byte} {o : Except ErrKind Walk} {fs : List Field} {st : Walk}
    (hb : opcode ∉ [0xC6#8, 0xC7, 0x8C, 0x8E, 0x80, 0x81, 0x83]) (ho : o = walk fetch g fs st)
    (hfs : ∀ f ∈ fs, f.kind ≠ .literal ∧ f.kind ≠ .rm) : ErrorsAsLiteralSays fetch opcode o :=
  .inr ⟨fun ⟨m, _, hm⟩ => by simp [literalMismatch_eq_false m hb] at hm, fun _ h => walk_error hfs (ho.symm.trans h)⟩

/-- A scheme whose MOD is read first, and whose literal, if there is one, stands between MOD and RM. -/
theorem ErrorsAsLiteralSays.of_mod {opcode : Byte} {fs : List Field} {st : Walk} (hq : st.q = 8)
    (h : ∀ m mid rm, fetch 1 = some (modRm m mid rm) →
      (literalMismatch opcode (modRm m mid rm) = true ∧
        walk fetch g fs { st with q := 10, slots := { st.slots with mod := some m } } = .error .unknownOpcode) ∨
      (literalMismatch opcode (modRm m mid rm) = false ∧
        ∀ k, walk fetch g fs { st with q := 10, slots := { st.slots with mod := some m } } = .error k → k = .truncatedStream)) :
    ErrorsAsLiteralSays fetch opcode (walk fetch g (fld .mod 2 :: fs) st) := by
  cases h1 : fetch 1 with
  | none =>
    rw [walk_mod_none h1 hq]
    exact .inr ⟨fun ⟨m, hm, _⟩ => by simp [h1] at hm, fun k hk => (Except.error.inj hk).symm⟩
  | some b =>
    obtain ⟨m, mid, rm, rfl⟩ := exists_modRm b
    rw [walk_mod h1 hq]
    obtain ⟨hm, hw⟩ | ⟨hm, hw⟩ := h m mid rm h1
    · exact .inl ⟨⟨_, h1, hm⟩, hw⟩
    · refine .inr ⟨fun ⟨b, hb, hbm⟩ => ?_, hw⟩
      cases h1.symm.trans hb
      simp [hm] at hbm

theorem errorsAsLiteralSays_movRmReg {d w : Bool} (h0 : fetch 0 = some (0b100010#6 ++ bit d ++ bit w)) :
    ErrorsAsLiteralSays fetch (0b100010#6 ++ bit d ++ bit w)
      (walk fetch false fieldsMovRmReg (Entry.walkStart ⟨some .movRmReg, "mov", fieldsMovRmReg⟩)) := by
  rw [walk_opcode_movRmReg h0]
  refine .of_mod rfl fun m mid rm h1 => .inr ⟨literalMismatch_eq_false _ (by clear h0; revert d w; decide), fun k => ?_⟩
  rw [walk_reg h1 rfl]
  exact walk_rm_error rfl (by decide)

theorem errorsAsLiteralSays_movSr {d : Bool} (h0 : fetch 0 = some (0b100011#6 ++ bit d ++ 0#1)) :
    ErrorsAsLiteralSays fetch (0b100011#6 ++ bit d ++ 0#1)
      (walk fetch false fieldsMovSr (Entry.walkStart ⟨some .movSr, "mov", fieldsMovSr⟩)) := by
  rw [walk_opcode_movSr h0]
  refine .of_mod rfl fun m mid rm h1 => ?_
  rw [literalMismatch_movSr]
  by_cases hb : bitField (modRm m mid rm) 2 1 = 0
  · obtain ⟨c, rfl⟩ := exists_srField_of_bit m mid rm hb
    rw [show (0b0#1 ++ c : BitVec 3) = srField (segTable c) by rw [srField, code_segTable]] at h1 hb ⊢
    rw [walk_sr h1 rfl]
    exact .inr ⟨by simp [hb], fun k => walk_rm_error rfl (by decide)⟩
  · exact .inl ⟨by simp [hb], walk_sr_mismatch h1 rfl hb⟩

theorem errorsAsLiteralSays_movImmRm {w : Bool} (h0 : fetch 0 = some (0b1100011#7 ++ bit w)) :
    ErrorsAsLiteralSays fetch (0b1100011#7 ++ bit w)
      (walk fetch false fieldsMovImmRm (Entry.walkStart ⟨some .movImmRm, "mov", fieldsMovImmRm⟩)) := by
  rw [walk_opcode_movImmRm h0]
  refine .of_mod rfl fun m mid rm h1 => ?_
  rw [literalMismatch_movImmRm]
  by_cases hmid : mid = 0b000
  · subst hmid
    rw [walk_literal h1 rfl]
    exact .inr ⟨rfl, fun k => walk_rm_error rfl (by decide)⟩
  · exact .inl ⟨bne_iff_ne.2 hmid, walk_literal_mismatch h1 rfl hmid⟩

theorem errorsAsLiteralSays_arith {s w : Bool} (hmem : (0b100000#6 ++ bit s ++ bit w : Byte) ∈ [0x80#8, 0x81, 0x83])
    (h0 : fetch 0 = some (0b100000#6 ++ bit s ++ bit w)) :
    ErrorsAsLiteralSays fetch (0b100000#6 ++ bit s ++ bit w)
      (walk fetch true fieldsArithImm (Entry.walkStart ⟨none, "", fieldsArithImm⟩)) := by
  rw [walk_opcode_arith h0]
  refine .of_mod rfl fun m mid rm h1 => ?_
  rw [literalMismatch_arith _ hmem]
  cases hsel : groupMember mid.toNat with
  | none => exact .inl ⟨rfl, walk_selector_mismatch h1 rfl hsel⟩
  | some p =>
    rw [walk_selector h1 rfl hsel]
    exact .inr ⟨rfl, fun k => walk_rm_error rfl (by decide)⟩

/-- What the walk over an entry of the table raises, the ModRM literal decides. -/
theorem errorsAsLiteralSays {b : Byte} {e : Entry} (h0 : fetch 0 = some b) (he : OpcodeEntry b e) :
    ErrorsAsLiteralSays fetch b (walk fetch e.scheme.isNone e.fields e.walkStart) := by
  cases he with
  | movRmReg d w => exact errorsAsLiteralSays_movRmReg h0
  | movSr d => exact errorsAsLiteralSays_movSr h0
  | movImmReg w reg =>
    exact .of_walk (by clear h0; revert w reg; decide) (walk_opcode_movImmReg h0) (by decide)
  | movImmRm w => exact errorsAsLiteralSays_movImmRm h0
  | movMemToAcc w =>
    exact .of_walk (by clear h0; revert w; decide) (walk_opcode_movMemToAcc h0) (by decide)
  | movAccToMem w =>
    exact .of_walk (by clear h0; revert w; decide) (walk_opcode_movAccToMem h0) (by decide)
  | arith w => cases w <;> exact errorsAsLiteralSays_arith (s := false) (by decide) h0
  | arithSx => exact errorsAsLiteralSays_arith (s := true) (w := true) (by decide) h0
  | jcc c =>
    exact .of_walk (by clear h0; revert c; decide) (walk_opcode_jcc h0) (by decide)

/-! ### The errors of decoding -/

/-- The bytes R77 lists are those with no entry. -/
theorem schemeOf_eq_none_iff : ∀ b : Byte, schemeOf b = none ↔ unknownByte b = true := by decide

theorem decode_of_schemeOf_none {b : Byte} (h0 : fetch 0 = some b) (hb : schemeOf b = none) :
    decode fetch = .error .unknownOpcode := by
  simp [decode, h0, hb]

/-- Where decoding is to raise UnknownOpcode (R77, R88). -/
def UnknownAt (fetch : Nat → Option Byte) : Prop :=
  ∃ b, fetch 0 = some b ∧ (unknownByte b = true ∨ MismatchAt fetch b)

theorem UnknownAt.decode_eq (h : UnknownAt fetch) : decode fetch = .error .unknownOpcode := by
  obtain ⟨b, h0, hb⟩ := h
  cases hs : schemeOf b with
  | none => exact decode_of_schemeOf_none h0 hs
  | some e =>
    have he := OpcodeEntry.of_schemeOf hs
    obtain hb | hb := hb
    · simp [(schemeOf_eq_none_iff b).2 hb] at hs
    · obtain ⟨-, hw⟩ | ⟨hno, -⟩ := errorsAsLiteralSays h0 he
      · exact decode_of_walk_error h0 he hw
      · exact absurd hb hno

/-- Decoding raises UnknownOpcode there, and anywhere else nothing but TruncatedStream (R89). -/
theorem decode_error_cases (h : decode fetch = .error k) :
    (UnknownAt fetch ∧ k = .unknownOpcode) ∨ (¬ UnknownAt fetch ∧ k = .truncatedStream) := by
  by_cases hu : UnknownAt fetch
  · exact .inl ⟨hu, (Except.error.inj (hu.decode_eq.symm.trans h)).symm⟩
  · refine .inr ⟨hu, ?_⟩
    cases h0 : fetch 0 with
    | none => exact (Except.error.inj ((decode_none h0).symm.trans h)).symm
    | some b =>
      cases hs : schemeOf b with
      | none => exact absurd ⟨b, h0, .inl ((schemeOf_eq_none_iff b).1 hs)⟩ hu
      | some e =>
        have he := OpcodeEntry.of_schemeOf hs
        cases hw : walk fetch e.scheme.isNone e.fields e.walkStart with
        | ok st =>
          obtain ⟨i, wf, hi, -⟩ := walk_entry_ok h0 hs hw
          cases (decode_of_holds wf hi).symm.trans h
        | error k' =>
          cases (decode_of_walk_error h0 he hw).symm.trans h
          obtain ⟨hm, -⟩ | ⟨-, herr⟩ := errorsAsLiteralSays h0 he
          · exact absurd ⟨b, h0, .inr hm⟩ hu
          · exact herr k hw

end

/-- Settles O16: `UnknownAt` decides whether decoding raises UnknownOpcode. -/
theorem unknownOpcodeExactly : Obligations.UnknownOpcodeExactly := by
  refine fun fetch => ⟨fun h => ?_, UnknownAt.decode_eq⟩
  obtain ⟨hu, -⟩ | ⟨-, hk⟩ := decode_error_cases h
  · exact hu
  · cases hk

end Sys2Proof
end

section
namespace Sys2Proof.Machine

/-- Settles O15: a byte with no entry is an unknown opcode, which `raiseError` answers as the policy says. -/
theorem unlistedOpcodeBytesAreUnknown : Obligations.UnlistedOpcodeBytesAreUnknown := by
  refine ⟨schemeOf_eq_none_iff, fun s b hs hb hu => ?_⟩
  have hd : decode s.fetchAtPos = .error .unknownOpcode := UnknownAt.decode_eq ⟨b, hb, .inl hu⟩
  rw [step_of_error hs hb hd, raiseError_eq]
  exact ⟨fun hp => by simp [hp], fun hp => by simp [hp]⟩

end Sys2Proof.Machine
end

section
/-! What a Decoded Operation says of its bytes: the bytes read, the EA extension, the data bytes, the length (R80, R85, R96, R97). -/

namespace Sys2Proof

/-! ### Decoding reads only the instruction's bytes (R97) -/

theorem Ea.extLen_le_two (ea : Ea) : ea.extLen ≤ 2 := by cases ea <;> simp [Ea.extLen]

theorem ImmData.len_le_two (data : ImmData) : data.len ≤ 2 := by cases data <;> simp [ImmData.len]

/-- No instruction is longer than six bytes (R70). -/
theorem Instr.len_le_maxLength (i : Instr) : i.len ≤ Config.maxLength := by
  cases i with
  | movRmReg _ _ _ ea | movSegToRm _ ea | movRmToSeg _ ea | addImmSx ea _ | subImmSx ea _ =>
    have := ea.extLen_le_two
    simp only [Instr.len, Config.maxLength]
    omega
  | movImmReg _ data =>
    have := data.len_le_two
    simp only [Instr.len, Config.maxLength]
    omega
  | movImmRm ea data | addImm ea data | subImm ea data =>
    have := ea.extLen_le_two
    have := data.len_le_two
    simp only [Instr.len, Config.maxLength]
    omega
  | _ => simp [Instr.len, Config.maxLength]

theorem Holds.congr {f g : Nat → Option Byte} {bs : List Byte} (h : Holds f 0 bs) (heq : ∀ n, n < bs.length → g n = f n) :
    Holds g 0 bs := fun j hj => by
  have := h j hj
  rw [Nat.zero_add] at this ⊢
  rw [heq j hj, this]

theorem UnknownAt.congr {f g : Nat → Option Byte} (h0 : g 0 = f 0) (h1 : g 1 = f 1) : UnknownAt g ↔ UnknownAt f := by
  simp only [UnknownAt, MismatchAt, h0, h1]

/-- A successful decode reads the bytes of its instruction alone. -/
theorem decode_ok_congr {f g : Nat → Option Byte} {rec : Decoded} {i : Instr} (h : decode f = .ok (rec, i))
    (heq : ∀ n, n < i.len → g n = f n) : decode g = .ok (rec, i) := by
  obtain ⟨wf, hbytes, rfl⟩ := decode_ok h
  exact decode_of_holds wf (hbytes.congr (by rwa [encode_length]))

/-- A failing decode reads no byte behind the longest instruction. -/
theorem decode_error_congr {f g : Nat → Option Byte} {k : ErrKind} (h : decode f = .error k)
    (heq : ∀ n, n < Config.maxLength → g n = f n) : decode g = .error k := by
  cases hg : decode g with
  | ok p =>
    obtain ⟨rec, i⟩ := p
    have hf := decode_ok_congr hg fun n hn => (heq n (Nat.lt_of_lt_of_le hn i.len_le_maxLength)).symm
    cases hf.symm.trans h
  | error k' =>
    have hu : UnknownAt g ↔ UnknownAt f := UnknownAt.congr (heq 0 (by decide)) (heq 1 (by decide))
    obtain ⟨hf, rfl⟩ | ⟨hf, rfl⟩ := decode_error_cases h
    · exact hg.symm.trans (hu.2 hf).decode_eq
    · obtain ⟨hg', -⟩ | ⟨-, rfl⟩ := decode_error_cases hg
      · exact absurd (hu.1 hg') hf
      · rfl

end Sys2Proof

namespace Sys2Proof.Machine

/-- An event comes from RUN, with bytes that decode. -/
theorem commitEvent_some {s : State} {e : Event} (h : commitEvent s = some e) :
    ∃ rec i, s.status = .run ∧ decode s.fetchAtPos = .ok (rec, i) ∧
      e = ⟨s.pos, s.stream.slice s.pos rec.len, rec, rec.line⟩ := by
  cases hd : decode s.fetchAtPos with
  | error k => simp [commitEvent_of_error hd] at h
  | ok p =>
    cases hs : s.status with
    | run =>
      obtain ⟨rec, i⟩ := p
      rw [commitEvent_of_decode hs hd] at h
      exact ⟨rec, i, rfl, rfl, (Option.some.inj h).symm⟩
    | done | fail => simp [commitEvent, hs] at h

/-- Settles O21: `decode_ok_congr` for a decode that succeeds, `decode_error_congr` for one that fails. -/
theorem decodingReadsOnlyItsBytes : Obligations.DecodingReadsOnlyItsBytes := by
  refine ⟨fun s t e he ht heq => ?_, fun s t k h heq => decode_error_congr h heq⟩
  obtain ⟨rec, i, -, hd, rfl⟩ := commitEvent_some he
  obtain ⟨-, -, hrec⟩ := decode_ok hd
  have hdt := decode_ok_congr hd (g := t.fetchAtPos) fun n hn => heq n (by rwa [hrec])
  exact ⟨_, commitEvent_of_decode ht hdt, rfl, rfl, rfl⟩

end Sys2Proof.Machine

namespace Sys2Proof

/-! ### The EA extension (R80) -/

@[simp] theorem Ea.fill_mod (ea : Ea) (r : Slots) : (ea.fill r).mod = some ea.mod := by cases ea <;> rfl
@[simp] theorem Ea.fill_rm (ea : Ea) (r : Slots) : (ea.fill r).rm = some ea.rm := by cases ea <;> rfl
@[simp] theorem ImmData.fill_mod (data : ImmData) (r : Slots) : (data.fill r).mod = r.mod := by cases data <;> rfl
@[simp] theorem ImmData.fill_rm (data : ImmData) (r : Slots) : (data.fill r).rm = r.rm := by cases data <;> rfl
@[simp] theorem ImmData.fill_w (data : ImmData) (r : Slots) : (data.fill r).w = some data.w := by cases data <;> rfl

/-- The instruction has the r/m operand `ea`: in its slots, among its operands and in its bytes. -/
structure Instr.HasEa (i : Instr) (ea : Ea) : Prop where
  mod : i.recordSlots.mod = some ea.mod
  rm : i.recordSlots.rm = some ea.rm
  addrLo : i.recordSlots.addrLo = (ea.fill {}).addrLo
  addrHi : i.recordSlots.addrHi = (ea.fill {}).addrHi
  dispLo : i.recordSlots.dispLo = (ea.fill {}).dispLo
  dispHi : i.recordSlots.dispHi = (ea.fill {}).dispHi
  operand : ∃ w, i.recordSlots.w = some w ∧ ea.operand w ∈ i.operands
  wf : i.wf = ea.wf
  bytes : ∃ b mid rest, encode i = b :: (ea.bytes mid ++ rest)

theorem mem_orderByD_right (d : Bool) (o1 o2 : Operand) : o2 ∈ orderByD d o1 o2 := by cases d <;> simp [orderByD]

/-- MOD is there exactly in the instructions with an r/m operand. -/
theorem Instr.exists_hasEa {i : Instr} {m : BitVec 2} (h : i.recordSlots.mod = some m) : ∃ ea, i.HasEa ea := by
  cases i with
  | movRmReg d w reg ea =>
    refine ⟨ea, by simp [recordSlots], by simp [recordSlots], ?_, ?_, ?_, ?_,
      ⟨w, by simp [recordSlots], mem_orderByD_right _ _ _⟩, rfl, _, reg, [], by rw [List.append_nil]; rfl⟩
    all_goals cases ea <;> rfl
  | movSegToRm sr ea | movRmToSeg sr ea =>
    refine ⟨ea, by simp [recordSlots], by simp [recordSlots], ?_, ?_, ?_, ?_,
      ⟨true, by simp [recordSlots], mem_orderByD_right _ _ _⟩, rfl, _, srField sr, [], by rw [List.append_nil]; rfl⟩
    all_goals cases ea <;> rfl
  | movImmRm ea data | addImm ea data | subImm ea data =>
    refine ⟨ea, by simp [recordSlots], by simp [recordSlots], ?_, ?_, ?_, ?_,
      ⟨data.w, by simp [recordSlots], List.mem_cons_self⟩, rfl, _, _, data.bytes, rfl⟩
    all_goals cases ea <;> cases data <;> rfl
  | addImmSx ea lo | subImmSx ea lo =>
    refine ⟨ea, by simp [recordSlots], by simp [recordSlots], ?_, ?_, ?_, ?_,
      ⟨true, rfl, List.mem_cons_self⟩, rfl, _, _, [lo], rfl⟩
    all_goals cases ea <;> rfl
  | movImmReg reg data => simp [recordSlots] at h
  | _ => simp [recordSlots, accSlots, jccSlots] at h

/-- The EA extension stands behind the ModRM byte. -/
theorem Instr.HasEa.holds_ext {i : Instr} {ea : Ea} (hea : i.HasEa ea) {fetch : Nat → Option Byte}
    (h : Holds fetch 0 (encode i)) : Holds fetch 2 ea.ext := by
  obtain ⟨b, mid, rest, henc⟩ := hea.bytes
  rw [henc] at h
  obtain ⟨-, h⟩ := holds_cons_iff.1 h
  obtain ⟨h, -⟩ := holds_append_iff.1 h
  exact (holds_cons_iff.1 h).2

/-- Settles O22: the five rows of R80 are the five forms of the r/m operand. -/
theorem eaExtensionByModAndRm : Obligations.EaExtensionByModAndRm := by
  intro fetch rec i m rm hd hm hrm
  obtain ⟨wf, hbytes, rfl⟩ := decode_ok hd
  obtain ⟨ea, hea⟩ := Instr.exists_hasEa (i := i) hm
  have hext := hea.holds_ext hbytes
  obtain ⟨w, hw, hop⟩ := hea.operand
  rw [hea.wf] at wf
  obtain rfl : ea.mod = m := Option.some.inj (hea.mod.symm.trans hm)
  obtain rfl : ea.rm = rm := Option.some.inj (hea.rm.symm.trans hrm)
  simp only [Instr.record, hea.addrLo, hea.addrHi, hea.dispLo, hea.dispHi, hw]
  cases ea with
  | direct a =>
    obtain ⟨h2, h3⟩ := holds_cons_iff.1 hext
    obtain ⟨h3, -⟩ := holds_cons_iff.1 h3
    refine ⟨fun _ _ => ⟨_, _, h2, h3, ⟨rfl, rfl, rfl, rfl⟩, by rw [Machine.join16_bytes]; exact hop⟩,
      fun _ h => absurd rfl h, ?_, ?_, ?_⟩
    all_goals simp [Ea.mod]
  | mem rm =>
    refine ⟨fun _ h => ?_, fun _ _ => ⟨⟨rfl, rfl, rfl, rfl⟩, hop⟩, ?_, ?_, ?_⟩
    · simp [Ea.wf, show rm = 0b110 from h] at wf
    all_goals simp [Ea.mod]
  | disp8 rm d =>
    obtain ⟨h2, -⟩ := holds_cons_iff.1 hext
    refine ⟨?_, ?_, fun _ => ⟨_, h2, ⟨rfl, rfl, rfl, rfl⟩, hop⟩, ?_, ?_⟩
    all_goals simp [Ea.mod]
  | disp16 rm d =>
    obtain ⟨h2, h3⟩ := holds_cons_iff.1 hext
    obtain ⟨h3, -⟩ := holds_cons_iff.1 h3
    refine ⟨?_, ?_, ?_,
      fun _ => ⟨_, _, h2, h3, ⟨rfl, rfl, rfl, rfl⟩, by rw [Machine.join16_bytes]; exact hop⟩, ?_⟩
    all_goals simp [Ea.mod]
  | reg rm =>
    refine ⟨?_, ?_, ?_, ?_, fun _ => ⟨w, rfl, ⟨rfl, rfl, rfl, rfl⟩, hop⟩⟩
    all_goals simp [Ea.mod]

/-! ### The data bytes (R85) -/

/-- The slots the data bytes fill, where S is absent or 0. -/
theorem ImmData.dataHigh_fill (data : ImmData) {r : Slots} (hhi : r.dataHi = none) (hs : r.s = none ∨ r.s = some false) :
    (data.fill r).dataLo.isSome = true ∧ ((data.fill r).dataHi.isSome = true ↔
      (data.fill r).w = some true ∧ ((data.fill r).s = none ∨ (data.fill r).s = some false)) := by
  cases data with
  | byte lo => simp [ImmData.fill, hhi]
  | word v => simp [ImmData.fill, hs]

/-- The slots of opcode 83. -/
theorem dataHigh_sx {ea : Ea} {sel : Nat} {lo : Byte} {r : Slots}
    (hr : r = { ea.fill (arithSlots sel true) with w := some true, dataLo := some lo }) :
    r.dataLo.isSome = true ∧ (r.dataHi.isSome = true ↔ r.w = some true ∧ (r.s = none ∨ r.s = some false)) := by
  subst hr
  simp [arithSlots]

/-- Settles O23: each instruction of the four schemes fills its data slots by `ImmData.fill`, or is opcode 83. -/
theorem dataHighByWAndS : Obligations.DataHighByWAndS := by
  intro fetch rec i hd hsch
  obtain ⟨-, -, rfl⟩ := decode_ok hd
  change i.scheme ∈ _ at hsch
  cases i with
  | movImmReg reg data => exact data.dataHigh_fill rfl (.inl rfl)
  | movImmRm ea data => exact data.dataHigh_fill (Ea.fill_dataHi ea _) (.inl (Ea.fill_s ea _))
  | addImm ea data | subImm ea data => exact data.dataHigh_fill (Ea.fill_dataHi ea _) (.inr (Ea.fill_s ea _))
  | addImmSx ea lo | subImmSx ea lo => exact dataHigh_sx rfl
  | _ => simp [Instr.scheme] at hsch

/-! ### Lengths (R96) -/

/-- The length of the EA extension, from MOD and RM. -/
theorem Ea.extLen_eq {ea : Ea} (wf : ea.wf = true) {m : BitVec 2} {rm : BitVec 3} (hm : ea.mod = m) (hrm : ea.rm = rm) :
    ea.extLen = if m = 0b00 ∧ rm = 0b110 then 2 else if m = 0b01 then 1 else if m = 0b10 then 2 else 0 := by
  subst hm hrm
  cases ea with
  | mem rm =>
    have : rm ≠ 0b110#3 := by simpa [Ea.wf] using wf
    simp [Ea.extLen, Ea.mod, Ea.rm, this]
  | _ => simp [Ea.extLen, Ea.mod, Ea.rm]

theorem ImmData.len_eq (data : ImmData) : data.len = 1 + if data.w = true then 1 else 0 := by cases data <;> rfl

/-- Settles O24: the table of R96 is `Instr.len`, its E the length of the EA extension. -/
theorem lengthsOfInstructions : Obligations.LengthsOfInstructions := by
  intro fetch rec i hd
  obtain ⟨wf, -, rfl⟩ := decode_ok hd
  refine ⟨i.minLength_le_len, i.len_le_maxLength, ?_⟩
  simp only [Instr.record]
  cases i with
  | movRmReg d w reg ea | movSegToRm sr ea | movRmToSeg sr ea =>
    simp [Instr.recordSlots, Instr.scheme, Instr.len, Ea.extLen_eq wf rfl rfl]
  | movImmReg reg data =>
    simp [Instr.recordSlots, Instr.scheme, Instr.len, ImmData.len_eq]
    omega
  | movImmRm ea data =>
    simp [Instr.recordSlots, Instr.scheme, Instr.len, Ea.extLen_eq wf rfl rfl, ImmData.len_eq]
    omega
  | addImm ea data | subImm ea data =>
    simp [Instr.recordSlots, Instr.scheme, Instr.len, Ea.extLen_eq wf rfl rfl, ImmData.len_eq, arithSlots]
    omega
  | addImmSx ea lo | subImmSx ea lo =>
    simp [Instr.recordSlots, Instr.scheme, Instr.len, Ea.extLen_eq wf rfl rfl, arithSlots]
  | _ => simp [Instr.scheme, Instr.len]

/-! ### The scheme table (R78) -/

/-- Settles O25: the properties are checked row by row. -/
theorem schemeTableIsWellFormed : Obligations.SchemeTableIsWellFormed := by
  unfold Obligations.SchemeTableIsWellFormed
  decide

end Sys2Proof
end

section
/-! The step in RUN and what an instruction changes (R110-R115). -/

namespace Sys2Proof.Machine

/-! ### What an instruction changes -/

/-- The next state of an instruction, but for its register file (R112). -/
theorem exec_eq (i : Instr) (s : State) :
    ∃ r, exec i s = .next { s with regs := r, out := s.out ++ [i.line], pos := s.pos + i.len } := by
  obtain ⟨r, hr⟩ := exec_eq_commit i s
  exact ⟨r, hr.trans (commit_eq i _)⟩

/-- Settles O31: `exec_eq`. -/
theorem everyInstructionCommits : Obligations.EveryInstructionCommits := by
  intro i s
  obtain ⟨r, hr⟩ := exec_eq i s
  exact ⟨_, hr, rfl, rfl, rfl, rfl, rfl, rfl⟩

theorem exec_regs_of_commit {i : Instr} {s s' t : State} (hexec : exec i s = commit i s') (h : exec i s = .next t) :
    t.regs = s'.regs := by
  rw [hexec, commit_eq] at h
  cases h
  rfl

/-- The update of an r/m destination changes one register at most, and that with MOD=11 (R114). -/
theorem State.updateRm_regs_cases (s : State) (w : Bool) (ea : Ea) (g : Word → Word) :
    (s.updateRm w ea g).regs = s.regs ∨
    ∃ v, ea.operand w = .reg v ∧ ea.mod = 0b11 ∧
      ∀ st, st ≠ v.storage → (s.updateRm w ea g).regs.read st = s.regs.read st := by
  cases ea with
  | reg rm => exact .inr ⟨regTable w rm, rfl, rfl, fun st hst => RegFile.read_put_other _ _ _ hst⟩
  | _ => exact .inl rfl

/-- An immediate put into a register, in one storage (R114). -/
def PutsImmediate (i : Instr) (s t : State) : Prop :=
  ∃ v x tag, i.operands = [.reg v, .imm x tag] ∧ i.scheme ∈ [Scheme.movImmReg, .movImmRm, .addImm, .subImm] ∧
    (i.recordSlots.mod = none ∨ i.recordSlots.mod = some 0b11) ∧
    ∀ st, st ≠ v.storage → t.regs.read st = s.regs.read st

/-- An instruction with an immediate beside its r/m destination. -/
theorem regs_eq_or_putsImmediate {i : Instr} {s t : State} {w : Bool} {ea : Ea} {g : Word → Word} {x : Word} {tag : Tag}
    (hexec : exec i s = commit i (s.updateRm w ea g)) (h : exec i s = .next t)
    (hops : i.operands = [ea.operand w, .imm x tag]) (hsch : i.scheme ∈ [Scheme.movImmReg, .movImmRm, .addImm, .subImm])
    (hmod : i.recordSlots.mod = some ea.mod) : t.regs = s.regs ∨ PutsImmediate i s t := by
  have ht := exec_regs_of_commit hexec h
  obtain hr | ⟨v, hv, hm, hr⟩ := s.updateRm_regs_cases w ea g
  · exact .inl (ht.trans hr)
  · exact .inr ⟨v, x, tag, by rw [hops, hv], hsch, .inr (by rw [hmod, hm]), by rwa [ht]⟩

/-- Settles O32: the five instructions with an r/m destination update it, B0-BF put into a register, the others touch none. -/
theorem registersChangeOnlyByImmediates : Obligations.RegistersChangeOnlyByImmediates := by
  intro i s t h
  cases i with
  | movImmReg reg data =>
    refine .inr ⟨regTable data.w reg, _, _, rfl, by simp [Instr.scheme], .inl (ImmData.fill_mod data _), fun st hst => ?_⟩
    rw [exec_regs_of_commit (s' := s.put (regTable data.w reg) data.value) rfl h]
    exact RegFile.read_put_other _ _ _ hst
  | movImmRm ea data | addImm ea data | subImm ea data =>
    exact regs_eq_or_putsImmediate rfl h rfl (by simp [Instr.scheme]) ((ImmData.fill_mod data _).trans (Ea.fill_mod ea _))
  | addImmSx ea lo | subImmSx ea lo =>
    exact regs_eq_or_putsImmediate rfl h rfl (by simp [Instr.scheme]) (Ea.fill_mod ea _)
  | _ => exact .inl (exec_regs_of_commit rfl h)

/-! ### The step from RUN -/

/-- Settles O8: no byte stands at the end of the stream. -/
theorem endOfStreamIsDone : Obligations.EndOfStreamIsDone := by
  intro s hwf hs hpos
  have hf : s.fetch s.pos = none := (Memory.fetch_eq_none hwf _).2 hpos.ge
  exact ⟨step_of_none hs hf, dump_of_final (by simp)⟩

/-- Settles O9: `step_of_decode`. -/
theorem stepRunsTheDecodedInstruction : Obligations.StepRunsTheDecodedInstruction := fun _ _ _ => step_of_decode

/-- Settles O10: what is encoded at the cursor decodes. -/
theorem stepRunsTheEncodedInstruction : Obligations.StepRunsTheEncodedInstruction := fun _ _ hs wf h =>
  step_of_decode hs (decode_of_holds wf h)

/-- Settles O11: the record's line and length are the instruction's. -/
theorem commitAppendsTheLineAndAdvances : Obligations.CommitAppendsTheLineAndAdvances := by
  intro s rec i hs hd
  obtain ⟨-, -, rfl⟩ := decode_ok hd
  obtain ⟨r, hr⟩ := exec_eq i s
  exact ⟨r, hr, (step_of_decode hs hd).trans hr⟩

/-- Settles O5: a commit and a skip move the cursor on, the end of the stream and a recorded error leave RUN. -/
theorem stepFromRunProgresses : Obligations.StepFromRunProgresses := by
  intro s hs
  cases hf : s.fetch s.pos with
  | none => exact ⟨_, step_of_none hs hf, .inr ⟨by simp, rfl⟩⟩
  | some b =>
    cases hd : decode s.fetchAtPos with
    | ok p =>
      obtain ⟨r, hr⟩ := exec_eq p.2 s
      have hlen : Config.minLength ≤ p.2.len := p.2.minLength_le_len
      exact ⟨_, (step_of_decode hs hd).trans hr, .inl ⟨hs, Nat.lt_add_of_pos_right (Nat.lt_of_lt_of_le (by decide) hlen)⟩⟩
    | error k =>
      rw [step_of_error hs hf hd, raiseError_eq]
      split
      next => exact ⟨_, rfl, .inl ⟨hs, Nat.lt_succ_self _⟩⟩
      next => exact ⟨_, rfl, .inr ⟨by simp, rfl⟩⟩

/-! ### The registers do not reach the text -/

/-- Settles O45: each of the ways a step answers reads the registers for the registers alone. -/
theorem registersNeverReachTheText : Obligations.RegistersNeverReachTheText := by
  intro s t r h
  suffices hstep : ∃ r', step { s with regs := r } = .next { t with regs := r' } from
    hstep.imp fun _ h => ⟨h, rfl⟩
  obtain ⟨hs, ⟨hf, rfl⟩ | ⟨rec, i, hd, hexec⟩ | ⟨b, k, hb, hd, herr⟩⟩ := step_cases h
  · exact ⟨r, step_of_none (s := { s with regs := r }) hs hf⟩
  · obtain ⟨_, rfl⟩ := exec_next hexec
    obtain ⟨r', hr'⟩ := exec_eq i { s with regs := r }
    exact ⟨r', (step_of_decode (s := { s with regs := r }) hs hd).trans hr'⟩
  · refine ⟨r, (step_of_error (s := { s with regs := r }) hs hb hd).trans ?_⟩
    rw [raiseError_eq] at herr ⊢
    split at herr
    next hskip => rw [if_pos hskip, ← Host.Outcome.next.inj herr]
    next hskip => rw [if_neg hskip, ← Host.Outcome.next.inj herr]

/-! ### Whole runs -/

/-- The bytes from the cursor on, after an instruction has moved it. -/
theorem holds_after_exec {i : Instr} {s t : State} {bs : List Byte} (h : exec i s = .next t) :
    Holds t.fetchAtPos 0 bs ↔ Holds s.fetchAtPos i.len bs := by
  obtain ⟨r, rfl⟩ := exec_next h
  simp only [Holds, State.fetchAtPos, State.fetch, Nat.add_assoc, Nat.zero_add]

theorem encodeAll_cons (i : Instr) (is : List Instr) : encodeAll (i :: is) = encode i ++ encodeAll is := rfl

theorem execAll_cons_of_next {i : Instr} {is : List Instr} {s t : State} (h : exec i s = .next t) :
    execAll (i :: is) s = execAll is t := by
  simp [execAll, h]

theorem core_run_succ_of_next {k : Nat} {s t : State} (h : step s = .next t) :
    Sys2Proof.core.run (k + 1) s = Sys2Proof.core.run k t := by
  simp [core_run_succ, h]

/-- Settles O46: by induction on the instructions, each of which is one step. -/
theorem streamOfInstructionsRunsToDone : Obligations.StreamOfInstructionsRunsToDone := by
  intro s is
  induction is generalizing s with
  | nil =>
    intro hwf hs _ _ hpos
    have hf : s.fetch s.pos = none := (Memory.fetch_eq_none hwf _).2 hpos.ge
    exact ⟨s, rfl, by simp, hpos, rfl, (core_run_succ_of_next (step_of_none hs hf)).trans (core_run_zero _)⟩
  | cons i is ih =>
    intro hwf hs hiwf hbytes hpos
    obtain ⟨wf, hiswf⟩ := List.forall_mem_cons.1 hiwf
    rw [encodeAll_cons] at hbytes hpos
    obtain ⟨hi, his⟩ := holds_append_iff.1 hbytes
    rw [Nat.zero_add, encode_length] at his
    obtain ⟨s1, hexec, hout1, hpos1, hs1, -, hstream1, -⟩ := everyInstructionCommits i s
    have hstep : step s = .next s1 := (step_of_decode hs (decode_of_holds wf hi)).trans hexec
    rw [List.length_append, encode_length, ← Nat.add_assoc, ← hpos1, ← hstream1] at hpos
    obtain ⟨t, hall, hout, htpos, hrun, hdone⟩ :=
      ih s1 (by rwa [hstream1]) (hs1.trans hs) hiswf ((holds_after_exec hexec).2 his) hpos
    refine ⟨t, (execAll_cons_of_next hexec).trans hall, ?_, by rw [htpos, hstream1],
      (core_run_succ_of_next hstep).trans hrun, (core_run_succ_of_next hstep).trans hdone⟩
    rw [hout, hout1]
    simp

/-- A run from a final state that does not stop has taken no step. -/
theorem core_run_of_final {k : Nat} {s t : State} (hs : s.status ≠ .run) (h : Sys2Proof.core.run k s = .next t) : t = s := by
  cases k with
  | zero => exact (Host.Outcome.next.inj h).symm
  | succ k =>
    rw [core_run_succ, finalStatesHaveNoStep s hs] at h
    cases h

/-- A run under abort from RUN to DONE has executed the instructions whose encodings lie between the cursor and the end. -/
theorem disassembly_of_run {k : Nat} {s t : State} (hinv : s.Inv) (hs : s.status = .run) (hp : s.policy = .abort)
    (h : Sys2Proof.core.run k s = .next t) (ht : t.status = .done) :
    ∃ is : List Instr, (∀ i ∈ is, i.wf = true) ∧ Holds s.fetchAtPos 0 (encodeAll is) ∧
      s.pos + (encodeAll is).length = s.stream.size ∧ t.out = s.out ++ is.map Instr.line ∧
      execAll is s = .next { t with status := .run } := by
  induction k generalizing s with
  | zero =>
    cases h
    rw [hs] at ht
    cases ht
  | succ k ih =>
    obtain ⟨s1, hstep, -⟩ := stepFromRunProgresses s hs
    rw [core_run_succ_of_next hstep] at h
    have hinv1 := stepKeepsTheInvariant s s1 hinv hstep
    obtain ⟨-, ⟨hf, rfl⟩ | ⟨rec, i, hd, hexec⟩ | ⟨b, e, hb, hd, herr⟩⟩ := step_cases hstep
    · obtain rfl := core_run_of_final (by simp) h
      refine ⟨[], by simp, holds_nil _ _, hinv1.cursor.2 rfl, by simp, ?_⟩
      rw [← hs]
      rfl
    · obtain ⟨wf, hbytes, -⟩ := decode_ok hd
      obtain ⟨r, rfl⟩ := exec_next hexec
      obtain ⟨is, hiswf, his, hpos, hout, hall⟩ := ih hinv1 hs hp h
      rw [holds_after_exec hexec] at his
      refine ⟨i :: is, List.forall_mem_cons.2 ⟨wf, hiswf⟩, ?_, ?_, ?_, (execAll_cons_of_next hexec).trans hall⟩
      · rw [encodeAll_cons, holds_append_iff, Nat.zero_add, encode_length]
        exact ⟨hbytes, his⟩
      · rw [encodeAll_cons, List.length_append, encode_length, ← Nat.add_assoc]
        exact hpos
      · rw [hout]
        simp
    · rw [raiseError_eq, if_neg (by simp [hp])] at herr
      cases herr
      cases core_run_of_final (by simp) h
      cases ht

/-- Bytes that fill a loaded stream from its start are its bytes. -/
theorem eq_of_holds_start {bs cs : List Byte} {p : Policy} (h : Holds (State.start bs p).fetchAtPos 0 cs)
    (hlen : cs.length = bs.length) : cs = bs := by
  refine List.ext_getElem? fun j => ?_
  by_cases hj : j < cs.length
  · rw [← h j hj, State.fetchAtPos, State.fetch, State.start_pos, Nat.zero_add, Nat.zero_add, State.start_stream,
      Memory.fetch_load]
  · rw [List.getElem?_eq_none (by omega), List.getElem?_eq_none (by omega)]

/-- A run starts in the invariant. -/
theorem State.start_inv (bs : List Byte) (p : Policy) : (State.start bs p).Inv where
  stream := Memory.wf_load bs
  cursor := ⟨Nat.zero_le _, by simp⟩
  error := by simp [State.ErrorRecorded]
  lines := by simp [State.LinesCounted]

/-- Settles O47: the run from the start is `disassembly_of_run` with the cursor at 0. -/
theorem doneRunIsADisassembly : Obligations.DoneRunIsADisassembly := by
  intro bs k t h ht
  obtain ⟨is, hiswf, hbytes, hpos, hout, hall⟩ := disassembly_of_run (State.start_inv bs .abort) rfl rfl h ht
  have hlen : (encodeAll is).length = bs.length := by simpa using hpos
  exact ⟨is, hiswf, eq_of_holds_start hbytes hlen, by simpa using hout, hall⟩

end Sys2Proof.Machine
end

section
/-! The text of numbers and of memory operands (R90, R103, R104, R107). -/

namespace Sys2Proof

theorem decimal_toList (n : Nat) : (decimal n).toList = Nat.toDigits 10 n := String.toList_ofList

/-- No number but 0 is written with a leading zero. -/
theorem head?_toDigits_ne_zero {n : Nat} (hn : n ≠ 0) : (Nat.toDigits 10 n).head? ≠ some '0' := by
  induction n using Nat.strongRecOn with
  | ind n ih =>
    by_cases hlt : n < 10
    · rw [Nat.toDigits_of_lt_base hlt]
      simpa [Nat.digitChar_eq_zero] using hn
    · rw [Nat.toDigits_of_base_le (by decide) (by omega), List.head?_append_of_ne_nil _ Nat.toDigits_ne_nil]
      exact ih (n / 10) (by omega) (by omega)

theorem isDigit_bounds {c : Char} (h : c.isDigit = true) : '0' ≤ c ∧ c ≤ '9' := by
  simp only [Char.isDigit, Bool.and_eq_true, decide_eq_true_eq] at h
  exact h

/-- Settles O41: a decimal text is the number's digits in base 10. -/
theorem decimalTextReadsBack : Obligations.DecimalTextReadsBack := by
  refine ⟨fun n => ?_, rfl, fun k => ⟨fun hk => ?_, fun hk => ?_⟩⟩
  · rw [decimal_toList]
    refine ⟨fun c hc => isDigit_bounds (Nat.isDigit_of_mem_toDigits (by decide) (by decide) hc), Nat.toDigits_ne_nil,
      head?_toDigits_ne_zero, ?_⟩
    simpa only [Nat.ofDigitChars, Nat.mul_comm 10] using Nat.ofDigitChars_toDigits (b := 10) (n := n) (by decide) (by decide)
  · rw [signedDecimal, if_neg (by omega), show k.natAbs = k.toNat by omega]
  · rw [signedDecimal, if_pos hk, show k.natAbs = (-k).toNat by omega]

/-- Settles O42: `dispText` by the sign of the displacement. -/
theorem memoryOperandText : Obligations.MemoryOperandText := by
  refine ⟨fun b rm k => ⟨?_, fun h => ?_, fun h => ?_, fun h => ?_, rfl⟩, rfl, rfl, rfl, rfl, rfl, rfl, rfl, rfl⟩
  · simp [Operand.text, dispText]
  · simp [Operand.text, dispText, h]
  · have hn : k.toInt.natAbs = k.toInt.toNat := by omega
    simp [Operand.text, dispText, h, h.ne', hn, String.append_assoc]
  · have hn : k.toInt.natAbs = (-k.toInt).toNat := by omega
    simp [Operand.text, dispText, h.ne, h.not_gt, hn, String.append_assoc]

end Sys2Proof
end

section
/-! The text of a line from its operands (R100-R105). -/

namespace Sys2Proof

/-- Only an immediate's text depends on what stands beside it (R105). -/
theorem Ea.text_operand (ea : Ea) (w b : Bool) : (ea.operand w).text b = (ea.operand w).text false := by
  cases ea <;> rfl

theorem Ea.isMemory_operand {ea : Ea} (hea : ∀ rm, ea ≠ .reg rm) (w : Bool) : (ea.operand w).isMemory = true := by
  cases ea with
  | reg rm => exact absurd rfl (hea rm)
  | _ => rfl

/-- The text of a register operand beside an r/m operand, which D orders (R93, R100). -/
theorem renderLine_orderByD {o : Operand} {name : String} (ho : ∀ b, o.text b = name) (mnemonic : String) (d w : Bool)
    (ea : Ea) :
    renderLine mnemonic (orderByD d o (ea.operand w)) =
      if d then mnemonic ++ " " ++ name ++ ", " ++ (ea.operand w).text false
      else mnemonic ++ " " ++ (ea.operand w).text false ++ ", " ++ name := by
  cases d <;> simp [orderByD, renderLine, ho, Ea.text_operand]

/-- An immediate beside a register shows no width (R105). -/
theorem Instr.line_register_immediate {i : Instr} {v : View} {x : Word} {tag : Tag}
    (hops : i.operands = [.reg v, .imm x tag]) :
    i.line = i.mnemonic ++ " " ++ v.name ++ ", " ++ signedDecimal x.toInt := by
  have hreg : (Operand.reg v).isMemory = false := rfl
  simp [Instr.line, hops, renderLine, hreg, Operand.text]

theorem Tag.text_tagOf (w : Bool) : (tagOf w).text = if w then "word " else "byte " := by cases w <;> rfl

/-- An immediate beside memory shows its width (R105). -/
theorem Instr.line_memory_immediate {i : Instr} {ea : Ea} {w : Bool} {x : Word} (hea : ∀ rm, ea ≠ .reg rm)
    (hops : i.operands = [ea.operand w, .imm x (tagOf w)]) :
    i.line = i.mnemonic ++ " " ++ (ea.operand w).text false ++ ", " ++ (if w then "word " else "byte ") ++
      signedDecimal x.toInt := by
  have himm : (Operand.imm x (tagOf w)).text true = (tagOf w).text ++ signedDecimal x.toInt := rfl
  simp only [Instr.line, hops, renderLine, Ea.isMemory_operand hea, Ea.text_operand, himm, Tag.text_tagOf, String.append_assoc]

theorem sext16_toInt (lo : Byte) : (sext16 lo).toInt = lo.toInt := BitVec.toInt_signExtend_of_le (by decide)

/-- Sign extension keeps the byte (R8). -/
theorem sext16_toNat_mod (lo : Byte) : (sext16 lo).toNat % 256 = lo.toNat := by
  have h : (sext16 lo).setWidth 8 = lo := by
    apply BitVec.eq_of_getLsbD_eq
    intro i hi
    simp [sext16, BitVec.getElem_signExtend, hi, hi.trans (show 8 < 16 by decide)]
  simpa using congrArg BitVec.toNat h

end Sys2Proof
end

section
/-! The mov family (R130-R136). -/

namespace Sys2Proof.Machine

/-- The next state of an instruction from the state its commit starts from, its line and its length. -/
theorem exec_of_commit {i : Instr} {s s' : State} {line : String} {p : Nat} (hexec : exec i s = commit i s')
    (hline : i.line = line) (hpos : s'.pos + i.len = p) :
    exec i s = .next { s' with out := s'.out ++ [line], pos := p } := by
  rw [hexec, commit_eq, hline, hpos]

/-- Settles O33: the commit of 88-8B starts from the state itself. -/
theorem movRegisterMemoryOnlyRenders : Obligations.MovRegisterMemoryOnlyRenders := by
  intro d w reg ea s
  exact exec_of_commit rfl (renderLine_orderByD (fun _ => rfl) "mov" d w ea) (Nat.add_assoc ..).symm

/-- Settles O34: the commit of 8C and 8E starts from the state itself. -/
theorem segmentMovesOnlyRender : Obligations.SegmentMovesOnlyRender := by
  refine ⟨fun sr ea s => ⟨?_, ?_⟩, fun _ sr => ⟨rfl, segTable_code sr⟩, rfl, rfl, rfl, rfl, rfl, rfl, rfl, rfl⟩
  · exact exec_of_commit rfl (renderLine_orderByD (fun _ => rfl) "mov" false true ea) (Nat.add_assoc ..).symm
  · exact exec_of_commit rfl (renderLine_orderByD (fun _ => rfl) "mov" true true ea) (Nat.add_assoc ..).symm

theorem accumulator_name (w : Bool) : (accumulator w).name = if w then "ax" else "al" := by cases w <;> rfl

/-- Settles O35: the commit of A0-A3 starts from the state itself. -/
theorem accumulatorMovesOnlyRender : Obligations.AccumulatorMovesOnlyRender := by
  intro w addr s
  rw [← accumulator_name]
  exact ⟨exec_of_commit rfl rfl rfl, exec_of_commit rfl rfl rfl⟩

/-- Settles O36: one put, through a byte view or a word view. -/
theorem movImmediateToRegister : Obligations.MovImmediateToRegister := by
  refine ⟨fun reg lo s => ?_, fun reg x s => ?_⟩
  · have hcls := byteView_cls_ne_full reg
    refine ⟨s.regs.put (byteView reg) (sext16 lo), ?_, ?_, fun v hv hne => RegFile.get_put_other_byte _ _ hv hcls hne,
      fun st hst => RegFile.read_put_other _ _ _ hst⟩
    · rw [← sext16_toInt]
      exact exec_of_commit (s' := s.put (byteView reg) (sext16 lo)) rfl (Instr.line_register_immediate rfl) rfl
    · apply BitVec.eq_of_toNat_eq
      rw [RegFile.get_put_byte _ _ hcls, sext16_toNat_mod, zext16_toNat]
  · exact ⟨s.regs.put (wordView reg) x,
      exec_of_commit (s' := s.put (wordView reg) x) rfl (Instr.line_register_immediate rfl) rfl,
      RegFile.get_put_full _ _ (wordView_cls reg), fun st hst => RegFile.read_put_other _ _ _ hst⟩

/-- Settles O37: a register destination takes one put, through a word or a byte view as W says; memory is left alone. -/
theorem movImmediateToRegisterOrMemory : Obligations.MovImmediateToRegisterOrMemory := by
  refine ⟨fun rm data s => ⟨s.regs.put (regTable data.w rm) data.value, ?_, fun hw => ?_, fun hw => ?_,
    fun st hst => RegFile.read_put_other _ _ _ hst⟩, fun ea data s hea => ?_⟩
  · exact exec_of_commit (s' := s.put (regTable data.w rm) data.value) rfl (Instr.line_register_immediate rfl)
      (Nat.add_assoc ..).symm
  · rw [hw]
    exact RegFile.get_put_full _ _ (wordView_cls rm)
  · have hcls := byteView_cls_ne_full rm
    rw [hw]
    exact ⟨RegFile.get_put_byte _ _ hcls, fun v hv hne => RegFile.get_put_other_byte _ _ hv hcls hne⟩
  · have hexec : exec (.movImmRm ea data) s = commit (.movImmRm ea data) s :=
      congrArg (commit _) (s.updateRm_memory data.w ea _ hea)
    refine exec_of_commit hexec (Instr.line_memory_immediate hea rfl) ?_
    simp only [Instr.len, Nat.add_assoc]

end Sys2Proof.Machine
end

section
/-! The add/sub immediate group (R150-R153). -/

namespace Sys2Proof.Machine

/-! ### The arithmetic of R152 -/

theorem addResult_toNat (x imm : Word) : ((addResult x imm).toNat : Int) = (x.toNat + imm.toInt) % 65536 := by
  rw [addResult, BitVec.toNat_ofInt]
  omega

theorem subResult_toNat (x imm : Word) : ((subResult x imm).toNat : Int) = (x.toNat - imm.toInt) % 65536 := by
  rw [subResult, BitVec.toNat_ofInt]
  omega

/-- A byte result does not depend on the immediate's sign: both readings of a byte agree modulo 256 (R152). -/
theorem sext16_toInt_emod (lo : Byte) : (sext16 lo).toInt % 256 = lo.toNat := by
  rw [sext16_toInt, BitVec.toInt_eq_toNat_cond]
  omega

/-- The width of opcode 83's immediate is always a word (R87): the separator and the width as the renderer joins them. -/
theorem append_comma_word (line : String) : line ++ ", word " = line ++ ", " ++ "word " := by
  rw [String.append_assoc]
  rfl

/-! ### What an instruction with an immediate source commits -/

section
variable {i : Instr} {s : State} {rm : BitVec 3} {x y : Word} {tag : Tag}

/-- The next state of an instruction that puts a word into a register beside its immediate. -/
theorem exec_put {v : View} (hexec : exec i s = commit i (s.put v y)) (hops : i.operands = [.reg v, .imm x tag]) :
    exec i s = .next { s with
      regs := s.regs.put v y, out := s.out ++ [i.mnemonic ++ " " ++ v.name ++ ", " ++ signedDecimal x.toInt]
      pos := s.pos + i.len } :=
  exec_of_commit hexec (Instr.line_register_immediate hops) rfl

/-- A word register takes all of the result (R25, R152). -/
theorem exec_put_word {k : Int} (hexec : exec i s = commit i (s.put (wordView rm) y))
    (hops : i.operands = [.reg (wordView rm), .imm x tag]) (hy : (y.toNat : Int) = k) :
    ∃ r, exec i s = .next { s with
        regs := r, out := s.out ++ [i.mnemonic ++ " " ++ (wordView rm).name ++ ", " ++ signedDecimal x.toInt]
        pos := s.pos + i.len } ∧
      ((r.get (wordView rm)).toNat : Int) = k ∧
      ∀ st, st ≠ (wordView rm).storage → r.read st = s.regs.read st :=
  ⟨_, exec_put hexec hops, by rw [RegFile.get_put_full _ _ (wordView_cls rm), hy], fun _ => RegFile.read_put_other _ _ _⟩

/-- A byte register takes the low byte of the result, and its sibling stays (R26-R28, R152). -/
theorem exec_put_byte (hexec : exec i s = commit i (s.put (byteView rm) y))
    (hops : i.operands = [.reg (byteView rm), .imm x tag]) :
    ∃ r, exec i s = .next { s with
        regs := r, out := s.out ++ [i.mnemonic ++ " " ++ (byteView rm).name ++ ", " ++ signedDecimal x.toInt]
        pos := s.pos + i.len } ∧
      (r.get (byteView rm)).toNat = y.toNat % 256 ∧
      (∀ v : View, v.cls ≠ .full → v ≠ byteView rm → r.get v = s.regs.get v) ∧
      ∀ st, st ≠ (byteView rm).storage → r.read st = s.regs.read st :=
  have hcls := byteView_cls_ne_full rm
  ⟨_, exec_put hexec hops, RegFile.get_put_byte _ _ hcls, fun _ hv => RegFile.get_put_other_byte _ _ hv hcls,
    fun _ => RegFile.read_put_other _ _ _⟩

/-- Beside memory only the log and the cursor change, and the line shows the immediate's width (R105, R153). -/
theorem exec_updateRm_memory {ea : Ea} {w : Bool} {g : Word → Word} {p : Nat} (hea : ∀ rm, ea ≠ .reg rm)
    (hexec : exec i s = commit i (s.updateRm w ea g)) (hops : i.operands = [ea.operand w, .imm x (tagOf w)])
    (hpos : s.pos + i.len = p) :
    exec i s = .next { s with
      out := s.out ++ [i.mnemonic ++ " " ++ (ea.operand w).text false ++ ", " ++ (if w then "word " else "byte ") ++
        signedDecimal x.toInt]
      pos := p } := by
  rw [s.updateRm_memory w ea g hea] at hexec
  exact exec_of_commit hexec (Instr.line_memory_immediate hea hops) hpos

end

/-! ### 80, 81 and 83 (R150, R151) -/

/-- Settles O38: a register takes the put of `addResult`, memory is left alone. -/
theorem addImmediate : Obligations.AddImmediate := by
  refine ⟨fun rm x s => ?_, fun rm lo s => ?_, fun rm lo s => ?_, fun ea data lo s hea => ⟨?_, ?_⟩⟩
  · exact exec_put_word rfl rfl (addResult_toNat (s.regs.get (wordView rm)) x)
  · rw [← sext16_toInt]
    exact exec_put_word rfl rfl (addResult_toNat (s.regs.get (wordView rm)) (sext16 lo))
  · obtain ⟨r, hexec, hget, hsib, hread⟩ := exec_put_byte (i := .addImm (.reg rm) (.byte lo))
      (y := addResult (s.regs.get (byteView rm)) (sext16 lo)) rfl rfl
    have hsum := addResult_toNat (s.regs.get (byteView rm)) (sext16 lo)
    have hlo := sext16_toInt_emod lo
    rw [← sext16_toInt]
    exact ⟨r, hexec, by omega, by omega, hsib, hread⟩
  · exact exec_updateRm_memory hea rfl rfl (by simp only [Instr.len, Nat.add_assoc])
  · rw [← sext16_toInt, append_comma_word]
    exact exec_updateRm_memory hea rfl rfl (Nat.add_assoc ..).symm

/-- Settles O39: a register takes the put of `subResult`, memory is left alone. -/
theorem subImmediate : Obligations.SubImmediate := by
  refine ⟨fun rm x s => ?_, fun rm lo s => ?_, fun rm lo s => ?_, fun ea data lo s hea => ⟨?_, ?_⟩⟩
  · exact exec_put_word rfl rfl (subResult_toNat (s.regs.get (wordView rm)) x)
  · rw [← sext16_toInt]
    exact exec_put_word rfl rfl (subResult_toNat (s.regs.get (wordView rm)) (sext16 lo))
  · obtain ⟨r, hexec, hget, hsib, hread⟩ := exec_put_byte (i := .subImm (.reg rm) (.byte lo))
      (y := subResult (s.regs.get (byteView rm)) (sext16 lo)) rfl rfl
    have hdiff := subResult_toNat (s.regs.get (byteView rm)) (sext16 lo)
    have hlo := sext16_toInt_emod lo
    rw [← sext16_toInt]
    exact ⟨r, hexec, by omega, by omega, hsib, hread⟩
  · exact exec_updateRm_memory hea rfl rfl (by simp only [Instr.len, Nat.add_assoc])
  · rw [← sext16_toInt, append_comma_word]
    exact exec_updateRm_memory hea rfl rfl (Nat.add_assoc ..).symm

end Sys2Proof.Machine
end

section
/-! The conditional jumps (R170-R187). -/

namespace Sys2Proof

/-- The sign of a relative offset stands between `$` and its magnitude (R106). -/
theorem relText_eq (d : Byte) :
    relText d = "$" ++ (if 0 ≤ d.toInt + 2 then "+" else "-") ++ decimal (d.toInt + 2).natAbs := by
  unfold relText
  split
  · rw [if_pos ‹_›]
    rfl
  · rw [if_neg ‹_›]
    rfl

/-- The line of an instruction whose one operand is a relative offset (R101, R106). -/
theorem Instr.line_relative {i : Instr} {d : Byte} (hops : i.operands = [.rel d]) :
    i.line = i.mnemonic ++ " $" ++ (if 0 ≤ d.toInt + 2 then "+" else "-") ++ decimal (d.toInt + 2).natAbs := by
  have hline : i.line = i.mnemonic ++ " " ++ relText d := by rw [Instr.line, hops]; rfl
  have hdollar : " $" = " " ++ "$" := rfl
  rw [hline, relText_eq, hdollar]
  simp only [String.append_assoc]

end Sys2Proof

namespace Sys2Proof.Machine

/-- What a jump commits: its line and the cursor's advance, whatever the state holds (R170, R187). -/
theorem exec_relative {i : Instr} {d : Byte} {s : State} (hexec : exec i s = commit i s) (hops : i.operands = [.rel d])
    (hlen : i.len = 2) :
    exec i s = .next { s with
      out := s.out ++ [i.mnemonic ++ " $" ++ (if 0 ≤ d.toInt + 2 then "+" else "-") ++ decimal (d.toInt + 2).natAbs]
      pos := s.pos + 2 } :=
  exec_of_commit hexec (Instr.line_relative hops) (congrArg _ hlen)

/-- Settles O40: the commit of each jump starts from the state itself. -/
theorem jumpsOnlyRenderAndAdvance : Obligations.JumpsOnlyRenderAndAdvance := by
  intro d s
  refine ⟨?jo, ?jno, ?jb, ?jnb, ?je, ?jne, ?jbe, ?ja, ?js, ?jns, ?jp, ?jnp, ?jl, ?jnl, ?jle, ?jg⟩ <;>
    exact ⟨rfl, exec_relative rfl rfl rfl⟩

end Sys2Proof.Machine
end

section
/-! The errors of the machine (R200-R208). -/

namespace Sys2Proof

/-! ### A cut instruction (R202) -/

/-- An instruction that decodes ends before the first missing byte. -/
theorem len_le_of_decode_ok {f : Nat → Option Byte} {rec : Decoded} {i : Instr} {n : Nat} (h : decode f = .ok (rec, i))
    (hn : f n = none) : i.len ≤ n := by
  obtain ⟨-, hbytes, -⟩ := decode_ok h
  by_contra hlt
  have hsome : (f n).isSome = true := hbytes.fetch_isSome (by rw [encode_length]; omega)
  simp [hn] at hsome

/-- The bytes that make an opcode unknown stand before the first missing byte. -/
theorem UnknownAt.of_agree_below {f g : Nat → Option Byte} {n : Nat} (h : UnknownAt f) (h0 : 0 < n) (hn : f n = none)
    (heq : ∀ k, k < n → g k = f k) : UnknownAt g := by
  obtain ⟨b, hb, hbad⟩ := h
  refine ⟨b, (heq 0 h0).trans hb, hbad.imp_right fun ⟨m, hm, hmis⟩ => ⟨m, (heq 1 ?_).trans hm, hmis⟩⟩
  have hne : n ≠ 1 := by
    rintro rfl
    simp [hn] at hm
  omega

/-- Where decoding does not raise TruncatedStream, the bytes before the first missing one fix its answer. -/
theorem decode_truncated_or_eq {f g : Nat → Option Byte} {n : Nat} (h0 : 0 < n) (hn : f n = none)
    (heq : ∀ k, k < n → g k = f k) : decode f = .error .truncatedStream ∨ decode g = decode f := by
  cases hd : decode f with
  | ok p => exact .inr (decode_ok_congr hd fun k hk => heq k (Nat.lt_of_lt_of_le hk (len_le_of_decode_ok hd hn)))
  | error k =>
    obtain ⟨hu, rfl⟩ | ⟨-, rfl⟩ := decode_error_cases hd
    · exact .inr (hu.of_agree_below h0 hn heq).decode_eq
    · exact .inl rfl

/-- A proper prefix of an encoding, with no byte behind it, raises TruncatedStream: the whole encoding decodes, and its
instruction does not fit (R202). -/
theorem decode_of_cut {f : Nat → Option Byte} {i : Instr} {n : Nat} (wf : i.wf = true) (h0 : 0 < n) (hlt : n < i.len)
    (hbytes : Holds f 0 ((encode i).take n)) (hn : f n = none) : decode f = .error .truncatedStream := by
  have hwhole : decode (fun k => (encode i)[k]?) = .ok (i.record, i) := decode_of_holds wf fun j _ => by rw [Nat.zero_add]
  have hagree : ∀ k, k < n → (encode i)[k]? = f k := fun k hk => by
    have hk' := hbytes k (by rw [List.length_take, encode_length]; omega)
    rw [Nat.zero_add, List.getElem?_take_of_lt hk] at hk'
    exact hk'.symm
  obtain hcut | hsame := decode_truncated_or_eq h0 hn hagree
  · exact hcut
  · exact absurd (len_le_of_decode_ok (hsame.symm.trans hwhole) hn) (by omega)

/-! ### The contradiction of the walker (R203) -/

theorem walkRm_of_mod_none {fetch : Nat → Option Byte} {st : Walk} (h : st.slots.mod = none) :
    walkRm fetch st = .error .invalidAddressingState := by
  simp [walkRm, h]

/-- Settles O18: decoding raises UnknownOpcode or TruncatedStream and nothing else. -/
theorem invalidAddressingStateIsUnreachable : Obligations.InvalidAddressingStateIsUnreachable := by
  refine ⟨fun _ _ => walkRm_of_mod_none, fun fetch h => ?_⟩
  obtain ⟨-, hk⟩ | ⟨-, hk⟩ := decode_error_cases h
  · cases hk
  · cases hk

/-- Settles O50: each code is the definition's. -/
theorem errorKindsHaveTheirCodes : Obligations.ErrorKindsHaveTheirCodes := ⟨rfl, rfl, rfl⟩

end Sys2Proof

namespace Sys2Proof.Machine

/-! ### The step that raises an error (R205-R208) -/

/-- A step from RUN whose error the policy does not skip (R205). -/
theorem step_of_fatal_error {s : State} {b : Byte} {k : ErrKind} (hs : s.status = .run) (hb : s.fetch s.pos = some b)
    (hd : decode s.fetchAtPos = .error k) (hfatal : ¬ (s.policy = .skip1 ∧ k = .unknownOpcode)) :
    step s = .next { s with status := .fail, err := some (k, s.pos) } := by
  rw [step_of_error hs hb hd, raiseError_eq, if_neg hfatal]

/-- A step from RUN over an unknown opcode under skip1 (R206). -/
theorem step_of_skipped_error {s : State} {b : Byte} (hs : s.status = .run) (hb : s.fetch s.pos = some b)
    (hd : decode s.fetchAtPos = .error .unknownOpcode) (hp : s.policy = .skip1) :
    step s = .next { s with pos := s.pos + 1 } := by
  rw [step_of_error hs hb hd, raiseError_eq, if_pos ⟨hp, rfl⟩]

/-- Settles O12: under abort no error is skipped, and a final state has its dump. -/
theorem abortRecordsTheError : Obligations.AbortRecordsTheError := by
  intro s k b hs hp hb hd
  refine ⟨step_of_fatal_error hs hb hd (by simp [hp]), ?_⟩
  rw [dump_of_final (by simp)]
  rfl

/-- Settles O13: `step_of_skipped_error` and `step_of_fatal_error`. -/
theorem skipPassesOverUnknownOpcodesOnly : Obligations.SkipPassesOverUnknownOpcodesOnly := by
  refine fun s k b hs hp hb hd => ⟨?_, fun hk => step_of_fatal_error hs hb hd fun h => hk h.2⟩
  rintro rfl
  exact step_of_skipped_error hs hb hd hp

/-- Settles O14: of the ways a step answers, only a recorded error leaves FAIL. -/
theorem failedStepChangesOnlyStatusAndError : Obligations.FailedStepChangesOnlyStatusAndError := by
  intro s t h ht
  obtain ⟨hs, ⟨-, rfl⟩ | ⟨rec, i, -, hexec⟩ | ⟨b, k, -, -, herr⟩⟩ := step_cases h
  · cases ht
  · obtain ⟨r, rfl⟩ := exec_next hexec
    cases hs.symm.trans ht
  · obtain rfl | rfl := raiseError_next herr
    · cases hs.symm.trans ht
    · exact ⟨rfl, rfl, rfl, rfl, rfl⟩

/-- Settles O48: a step that stays in RUN commits, which has its event, or skips a byte. -/
theorem skippedBytesLeaveNoTrace : Obligations.SkippedBytesLeaveNoTrace := by
  intro s t _ h ht hev
  obtain ⟨hs, ⟨-, rfl⟩ | ⟨rec, i, hd, -⟩ | ⟨b, k, -, -, herr⟩⟩ := step_cases h
  · cases ht
  · rw [commitEvent_of_decode hs hd] at hev
    cases hev
  · obtain rfl | rfl := raiseError_next herr
    · rfl
    · cases ht

/-- Settles O17: the first byte is there, so the cut is an error of decoding, which neither policy skips. -/
theorem cutInstructionIsTruncated : Obligations.CutInstructionIsTruncated := by
  refine ⟨fun s i n hs wf h0 hlt hbytes hn => ?_, fun _ => step_of_none⟩
  have hd : decode s.fetchAtPos = .error .truncatedStream := decode_of_cut wf h0 hlt hbytes hn
  cases hb : s.fetch s.pos with
  | none =>
    have hsome : (s.fetchAtPos 0).isSome = true := hbytes.fetch_isSome (by rw [List.length_take, encode_length]; omega)
    simp [hb] at hsome
  | some b => exact step_of_fatal_error hs hb hd (by simp)

end Sys2Proof.Machine
end

section
/-! Reset, the start of a run and its end (R230, R232, R239). -/

namespace Sys2Proof.Machine

/-! ### Every run ends (R239) -/

/-- Settles O6: by induction on the bytes left, of which a step that stays in RUN uses one at least. -/
theorem everyRunEndsWithinTheStreamLength : Obligations.EveryRunEndsWithinTheStreamLength := by
  intro s hinv hs
  induction hleft : s.stream.size - s.pos using Nat.strongRecOn generalizing s with
  | ind n ih =>
    obtain ⟨t, hstep, ⟨ht, hpos⟩ | ⟨ht, -⟩⟩ := stepFromRunProgresses s hs
    · have htinv : t.Inv := stepKeepsTheInvariant s t hinv hstep
      have hinside : t.pos ≤ t.stream.size := htinv.cursor.1
      obtain ⟨hstream, -⟩ := stepNeverChangesStreamOrPolicy s t hstep
      rw [hstream] at hinside
      obtain ⟨k, u, hk, hrun, hu⟩ := ih (s.stream.size - t.pos) (by omega) t htinv ht (by rw [hstream])
      exact ⟨k + 1, u, by omega, (core_run_succ_of_next hstep).trans hrun, hu⟩
    · exact ⟨1, t, by omega, (core_run_succ_of_next hstep).trans (core_run_zero t), ht⟩

/-! ### Reset and the start of a run (R230, R232) -/

theorem RegFile.read_reset (st : Storage) : RegFile.reset.read st = 0 := by cases st <;> rfl

theorem ViewClass.extract_zero (c : ViewClass) : c.extract 0 = 0 := by cases c <;> rfl

theorem RegFile.get_reset (v : View) : RegFile.reset.get v = 0 := by
  rw [RegFile.get, RegFile.read_reset, ViewClass.extract_zero]

/-- Settles O1: every storage is reset to 0, so every view shows 0. -/
theorem resetPutsEveryFieldAtItsValue : Obligations.ResetPutsEveryFieldAtItsValue :=
  ⟨RegFile.read_reset, RegFile.get_reset, rfl, rfl, rfl, rfl⟩

/-- Reset is the start of a run over the empty stream. -/
theorem State.reset_eq_start : State.reset = State.start [] Config.defaultPolicy := rfl

/-- Settles O2: every start meets the invariant, and reset is one. -/
theorem runsStartInTheInvariant : Obligations.RunsStartInTheInvariant := by
  refine ⟨?_, fun bs p => ⟨State.start_inv bs p, Memory.size_load bs, Memory.fetch_load bs, rfl, rfl, rfl, rfl, rfl⟩⟩
  rw [State.reset_eq_start]
  exact State.start_inv _ _

end Sys2Proof.Machine
end

section
/-! Words of the document and the instructions they stand for (95_test_vectors.md). -/

namespace Sys2Proof

/-- Bytes that are the encoding of a well-formed instruction, and nothing behind it, decode to that instruction. -/
theorem decodeBytes_of_eq_encode {bs : List Byte} {i : Instr} (wf : i.wf = true) (hbs : encode i = bs) :
    (decodeBytes bs).toOption.map Prod.snd = some i := by
  subst hbs
  have hd : decodeBytes (encode i) = .ok (i.record, i) := decode_of_holds wf fun j _ => by rw [Nat.zero_add]
  rw [hd]
  rfl

/-- Settles O26: each word is the encoding of its instruction, which `decodeBytes_of_eq_encode` decodes. -/
theorem sampleWordsDecode : Obligations.SampleWordsDecode := by
  refine ⟨?_, ?_, ?_, ?_, ?_, ?_, ?_, ?_⟩ <;> exact decodeBytes_of_eq_encode (by decide) (by decide)

end Sys2Proof
end
